-- ==== Sys2Proof/Word.lean ====
section
/-! DEFINITION. The word types of the CHIP-8 core: what the spec treats as bits (00_scope R10, R11). -/

namespace Sys2Proof

/-- A byte: a V register, a timer, a memory cell (10_state R20, R25; 20_memory R60). -/
abbrev Byte := BitVec 8

/-- A 16-bit value: an instruction word, pc, I, a stack entry (30_encoding R90; 10_state R22–R24). -/
abbrev Word := BitVec 16

/-- A register is named by a 4-bit index: V0 is 0 and VF is 15 (10_state R20). -/
abbrev RegIx := BitVec 4

/-- VF, the register reused as the carry, borrow and collision flag (10_state R21). -/
abbrev vf : RegIx := 0xF#4

end Sys2Proof
end

