-- ==== Sys2Proof/Syntax.lean ====
section
/-! DEFINITION. The instructions: one constructor per row of spec/opcode_table.json, in the table's order, with the fields
its pattern shows (30_encoding R92, R94). Every operand has exactly the width of its field, so no ill-formed term exists.
SHR and SHL keep the Y field that their rules ignore (R139, R141), so that no bit of a word is lost. -/

namespace Sys2Proof

inductive Instr where
  /-- `00E0` CLS (44_display R232). -/
  | cls
  /-- `00EE` RET (42_control_flow R181). -/
  | ret
  /-- `1NNN` JP addr (42_control_flow R182). -/
  | jp (nnn : BitVec 12)
  /-- `2NNN` CALL addr (42_control_flow R183). -/
  | call (nnn : BitVec 12)
  /-- `3XNN` SE Vx, byte (41_arith_logic R144). -/
  | seImm (x : RegIx) (nn : Byte)
  /-- `4XNN` SNE Vx, byte (41_arith_logic R145). -/
  | sneImm (x : RegIx) (nn : Byte)
  /-- `5XY0` SE Vx, Vy (41_arith_logic R146). -/
  | seReg (x y : RegIx)
  /-- `5XY1` SKR1 Vx, Vy (43_extended R201). -/
  | skr1 (x y : RegIx)
  /-- `5XY2` SKR2 Vx, Vy (43_extended R202). -/
  | skr2 (x y : RegIx)
  /-- `5XY3` SKR3 Vx, Vy (43_extended R203). -/
  | skr3 (x y : RegIx)
  /-- `6XNN` LD Vx, byte (41_arith_logic R131). -/
  | ldImm (x : RegIx) (nn : Byte)
  /-- `7XNN` ADD Vx, byte (41_arith_logic R132). -/
  | addImm (x : RegIx) (nn : Byte)
  /-- `8XY0` LD Vx, Vy (41_arith_logic R133). -/
  | ldReg (x y : RegIx)
  /-- `8XY1` OR Vx, Vy (41_arith_logic R134). -/
  | orReg (x y : RegIx)
  /-- `8XY2` AND Vx, Vy (41_arith_logic R135). -/
  | andReg (x y : RegIx)
  /-- `8XY3` XOR Vx, Vy (41_arith_logic R136). -/
  | xorReg (x y : RegIx)
  /-- `8XY4` ADD Vx, Vy (41_arith_logic R137). -/
  | addReg (x y : RegIx)
  /-- `8XY5` SUB Vx, Vy (41_arith_logic R138). -/
  | sub (x y : RegIx)
  /-- `8XY6` SHR Vx, Vy; Y is ignored (41_arith_logic R139). -/
  | shr (x y : RegIx)
  /-- `8XY7` SUBN Vx, Vy (41_arith_logic R140). -/
  | subn (x y : RegIx)
  /-- `8XYE` SHL Vx, Vy; Y is ignored (41_arith_logic R141). -/
  | shl (x y : RegIx)
  /-- `9XY0` SNE Vx, Vy (41_arith_logic R147). -/
  | sneReg (x y : RegIx)
  /-- `9XY1` MUL Vx, Vy (43_extended R204). -/
  | mul (x y : RegIx)
  /-- `9XY2` DIV Vx, Vy (43_extended R205). -/
  | div (x y : RegIx)
  /-- `9XY3` BCD16 Vx, Vy (43_extended R206). -/
  | bcd16 (x y : RegIx)
  /-- `ANNN` LD I, addr (46_memory_index R270). -/
  | ldI (nnn : BitVec 12)
  /-- `BNNN` JP V0, addr (42_control_flow R184). -/
  | jpV0 (nnn : BitVec 12)
  /-- `CXNN` RND Vx, byte (41_arith_logic R142). -/
  | rnd (x : RegIx) (nn : Byte)
  /-- `DXYN` DRW Vx, Vy, n (44_display R231). -/
  | drw (x y : RegIx) (n : BitVec 4)
  /-- `EX9E` SKP Vx (45_keypad R251). -/
  | skp (x : RegIx)
  /-- `EXA1` SKNP Vx (45_keypad R252). -/
  | sknp (x : RegIx)
  /-- `FX07` LD Vx, DT (47_timers R300). -/
  | ldVxDt (x : RegIx)
  /-- `FX0A` LD Vx, K (45_keypad R253). -/
  | ldVxK (x : RegIx)
  /-- `FX15` LD DT, Vx (47_timers R301). -/
  | ldDtVx (x : RegIx)
  /-- `FX18` LD ST, Vx (47_timers R302). -/
  | ldStVx (x : RegIx)
  /-- `FX1E` ADD I, Vx (46_memory_index R271). -/
  | addI (x : RegIx)
  /-- `FX29` LD F, Vx (46_memory_index R272). -/
  | ldF (x : RegIx)
  /-- `FX33` LD B, Vx (46_memory_index R273). -/
  | ldB (x : RegIx)
  /-- `FX55` LD [I], Vx (46_memory_index R274). -/
  | ldMemVx (x : RegIx)
  /-- `FX65` LD Vx, [I] (46_memory_index R275). -/
  | ldVxMem (x : RegIx)
  /-- `FX94` GLYPH3 Vx (43_extended R207). -/
  | glyph3 (x : RegIx)
  deriving DecidableEq, Repr

end Sys2Proof
end

