-- ==== Sys2Proof/WellFormed.lean ====
section
/-! DEFINITION. Which instruction words are well formed, said from the spec's table of the unsupported space
(30_encoding R96) and not from the decoder: the decoder is compared with this by a statement. An `Instr` needs no check of
its own, since each operand has its field's exact width (Syntax.lean); that its word is well formed is the per-instruction
law of Laws/PerInstr.lean. -/

namespace Sys2Proof

/-- Row `0x0000–0x0FFF` of R96: every word but 0x00E0 and 0x00EE is unsupported. -/
def supportedFamily0 (w : Nat) : Bool := w == 0x00E0 || w == 0x00EE

/-- Rows `0x5XYN` and `0x9XYN` of R96: N = 4..F are unsupported. -/
def supportedFamily59 (w : Nat) : Bool := w % 16 < 4

/-- Row `0x8XYN` of R96: N = 8, 9, A, B, C, D, F are unsupported. -/
def supportedFamily8 (w : Nat) : Bool := !([0x8, 0x9, 0xA, 0xB, 0xC, 0xD, 0xF].contains (w % 16))

/-- Row `0xEXNN` of R96: every NN but 0x9E and 0xA1 is unsupported. -/
def supportedFamilyE (w : Nat) : Bool := [0x9E, 0xA1].contains (w % 256)

/-- Row `0xFXNN` of R96: every NN but the ten listed is unsupported. -/
def supportedFamilyF (w : Nat) : Bool :=
  [0x07, 0x0A, 0x15, 0x18, 0x1E, 0x29, 0x33, 0x55, 0x65, 0x94].contains (w % 256)

/-- The words outside the table of R96: `Families 1, 2, 3, 4, 6, 7, A, B, C and D have no unsupported word`. -/
def supportedWord (w : Word) : Bool :=
  if w.toNat < 0x1000 then supportedFamily0 w.toNat
  else if w.toNat < 0x5000 then true
  else if w.toNat < 0x6000 then supportedFamily59 w.toNat
  else if w.toNat < 0x8000 then true
  else if w.toNat < 0x9000 then supportedFamily8 w.toNat
  else if w.toNat < 0xA000 then supportedFamily59 w.toNat
  else if w.toNat < 0xE000 then true
  else if w.toNat < 0xF000 then supportedFamilyE w.toNat
  else supportedFamilyF w.toNat

end Sys2Proof
end

