-- ==== Sys2Proof/Decode.lean ====
section
/-! DEFINITION. The decoder, total on any bytes and rejecting by name, and the encoder, both written from the tables of
30_encoding (R63, R90–R96). -/

namespace Sys2Proof

/-- Why bytes are no instruction. Both are safe: nothing is executed. -/
inductive DecodeError where
  /-- The word `matches no known family/sub-opcode` (60_exceptions R321). -/
  | unsupportedOpcode (w : Word)
  /-- Fewer than the two bytes of a word were given; the fetch never does so (30_encoding R90, R91). -/
  | truncated (bytes : List Byte)
  deriving DecidableEq, Repr

/-- Words are big-endian: the first byte is w[15:8] (20_memory R63, 30_encoding R91). -/
def wordOfBytes (b0 b1 : Byte) : Word := b0 ++ b1

/-- The two bytes of a word in the order memory holds them (20_memory R63). -/
def bytesOfWord (w : Word) : List Byte := [w.extractLsb' 8 8, w.extractLsb' 0 8]

/-! The fields of R92. -/

def fieldOp (w : Word) : BitVec 4 := w.extractLsb' 12 4
def fieldX (w : Word) : RegIx := w.extractLsb' 8 4
def fieldY (w : Word) : RegIx := w.extractLsb' 4 4
def fieldN (w : Word) : BitVec 4 := w.extractLsb' 0 4
def fieldNN (w : Word) : Byte := w.extractLsb' 0 8
def fieldNNN (w : Word) : BitVec 12 := w.extractLsb' 0 12

/-! The families whose sub-operation narrows the match (R95); `none` is UNSUPPORTED. -/

/-- Family 0x0 matches on the whole word. -/
def decodeFamily0 (w : Word) : Option Instr :=
  if w = 0x00E0#16 then some .cls else if w = 0x00EE#16 then some .ret else none

/-- Family 0x5, on N. -/
def decodeFamily5 (x y : RegIx) (n : Nat) : Option Instr :=
  match n with
  | 0x0 => some (.seReg x y)
  | 0x1 => some (.skr1 x y)
  | 0x2 => some (.skr2 x y)
  | 0x3 => some (.skr3 x y)
  | _ => none

/-- Family 0x8, on N. -/
def decodeFamily8 (x y : RegIx) (n : Nat) : Option Instr :=
  match n with
  | 0x0 => some (.ldReg x y)
  | 0x1 => some (.orReg x y)
  | 0x2 => some (.andReg x y)
  | 0x3 => some (.xorReg x y)
  | 0x4 => some (.addReg x y)
  | 0x5 => some (.sub x y)
  | 0x6 => some (.shr x y)
  | 0x7 => some (.subn x y)
  | 0xE => some (.shl x y)
  | _ => none

/-- Family 0x9, on N. -/
def decodeFamily9 (x y : RegIx) (n : Nat) : Option Instr :=
  match n with
  | 0x0 => some (.sneReg x y)
  | 0x1 => some (.mul x y)
  | 0x2 => some (.div x y)
  | 0x3 => some (.bcd16 x y)
  | _ => none

/-- Family 0xE, on NN. -/
def decodeFamilyE (x : RegIx) (nn : Byte) : Option Instr :=
  if nn = 0x9E#8 then some (.skp x) else if nn = 0xA1#8 then some (.sknp x) else none

/-- Family 0xF, on NN. -/
def decodeFamilyF (x : RegIx) (nn : Byte) : Option Instr :=
  if nn = 0x07#8 then some (.ldVxDt x)
  else if nn = 0x0A#8 then some (.ldVxK x)
  else if nn = 0x15#8 then some (.ldDtVx x)
  else if nn = 0x18#8 then some (.ldStVx x)
  else if nn = 0x1E#8 then some (.addI x)
  else if nn = 0x29#8 then some (.ldF x)
  else if nn = 0x33#8 then some (.ldB x)
  else if nn = 0x55#8 then some (.ldMemVx x)
  else if nn = 0x65#8 then some (.ldVxMem x)
  else if nn = 0x94#8 then some (.glyph3 x)
  else none

/-- The case table of R95 over the word's fields. -/
def decodeFields (w : Word) : Option Instr :=
  match (fieldOp w).toNat with
  | 0x0 => decodeFamily0 w
  | 0x1 => some (.jp (fieldNNN w))
  | 0x2 => some (.call (fieldNNN w))
  | 0x3 => some (.seImm (fieldX w) (fieldNN w))
  | 0x4 => some (.sneImm (fieldX w) (fieldNN w))
  | 0x5 => decodeFamily5 (fieldX w) (fieldY w) (fieldN w).toNat
  | 0x6 => some (.ldImm (fieldX w) (fieldNN w))
  | 0x7 => some (.addImm (fieldX w) (fieldNN w))
  | 0x8 => decodeFamily8 (fieldX w) (fieldY w) (fieldN w).toNat
  | 0x9 => decodeFamily9 (fieldX w) (fieldY w) (fieldN w).toNat
  | 0xA => some (.ldI (fieldNNN w))
  | 0xB => some (.jpV0 (fieldNNN w))
  | 0xC => some (.rnd (fieldX w) (fieldNN w))
  | 0xD => some (.drw (fieldX w) (fieldY w) (fieldN w))
  | 0xE => decodeFamilyE (fieldX w) (fieldNN w)
  | _ => decodeFamilyF (fieldX w) (fieldNN w)

/-- R95: one instruction, or the rejection by name. It reads the word alone (R98). -/
def decode (w : Word) : Except DecodeError Instr :=
  match decodeFields w with
  | some i => .ok i
  | none => .error (.unsupportedOpcode w)

/-- Decode from bytes: a word is two of them, and the rest is handed back (R90). -/
def decodeBytes (bytes : List Byte) : Except DecodeError (Instr × List Byte) :=
  match bytes with
  | b0 :: b1 :: rest => (decode (wordOfBytes b0 b1)).map fun i => (i, rest)
  | _ => .error (.truncated bytes)

/-! The encoder, from the patterns of R94 and the rows of R95. -/

/-- Format A: `oNNN`. -/
def wordA (op : BitVec 4) (nnn : BitVec 12) : Word := op ++ nnn
/-- Format XB: `oXNN`; and XS, whose sub-operation byte stands in NN's place. -/
def wordXB (op : BitVec 4) (x : RegIx) (nn : Byte) : Word := op ++ (x ++ nn)
/-- Formats XY and XYN: `oXYs`, `DXYN`. -/
def wordXY (op : BitVec 4) (x y : RegIx) (n : BitVec 4) : Word := op ++ (x ++ (y ++ n))

/-- The one word of an instruction. -/
def encode (i : Instr) : Word :=
  match i with
  | .cls => 0x00E0#16
  | .ret => 0x00EE#16
  | .jp nnn => wordA 0x1#4 nnn
  | .call nnn => wordA 0x2#4 nnn
  | .seImm x nn => wordXB 0x3#4 x nn
  | .sneImm x nn => wordXB 0x4#4 x nn
  | .seReg x y => wordXY 0x5#4 x y 0x0#4
  | .skr1 x y => wordXY 0x5#4 x y 0x1#4
  | .skr2 x y => wordXY 0x5#4 x y 0x2#4
  | .skr3 x y => wordXY 0x5#4 x y 0x3#4
  | .ldImm x nn => wordXB 0x6#4 x nn
  | .addImm x nn => wordXB 0x7#4 x nn
  | .ldReg x y => wordXY 0x8#4 x y 0x0#4
  | .orReg x y => wordXY 0x8#4 x y 0x1#4
  | .andReg x y => wordXY 0x8#4 x y 0x2#4
  | .xorReg x y => wordXY 0x8#4 x y 0x3#4
  | .addReg x y => wordXY 0x8#4 x y 0x4#4
  | .sub x y => wordXY 0x8#4 x y 0x5#4
  | .shr x y => wordXY 0x8#4 x y 0x6#4
  | .subn x y => wordXY 0x8#4 x y 0x7#4
  | .shl x y => wordXY 0x8#4 x y 0xE#4
  | .sneReg x y => wordXY 0x9#4 x y 0x0#4
  | .mul x y => wordXY 0x9#4 x y 0x1#4
  | .div x y => wordXY 0x9#4 x y 0x2#4
  | .bcd16 x y => wordXY 0x9#4 x y 0x3#4
  | .ldI nnn => wordA 0xA#4 nnn
  | .jpV0 nnn => wordA 0xB#4 nnn
  | .rnd x nn => wordXB 0xC#4 x nn
  | .drw x y n => wordXY 0xD#4 x y n
  | .skp x => wordXB 0xE#4 x 0x9E#8
  | .sknp x => wordXB 0xE#4 x 0xA1#8
  | .ldVxDt x => wordXB 0xF#4 x 0x07#8
  | .ldVxK x => wordXB 0xF#4 x 0x0A#8
  | .ldDtVx x => wordXB 0xF#4 x 0x15#8
  | .ldStVx x => wordXB 0xF#4 x 0x18#8
  | .addI x => wordXB 0xF#4 x 0x1E#8
  | .ldF x => wordXB 0xF#4 x 0x29#8
  | .ldB x => wordXB 0xF#4 x 0x33#8
  | .ldMemVx x => wordXB 0xF#4 x 0x55#8
  | .ldVxMem x => wordXB 0xF#4 x 0x65#8
  | .glyph3 x => wordXB 0xF#4 x 0x94#8

/-- The bytes of an instruction as memory holds them. -/
def encodeBytes (i : Instr) : List Byte := bytesOfWord (encode i)

/-- The bytes of a table row's word: the bits from nbits up are 0, and the one 16-bit word lies big-endian. -/
def tableBytes (nbits w : Nat) : List Byte := bytesOfWord (BitVec.ofNat 16 (w % 2 ^ nbits))

/-- What the decoder reads from a word numbered as spec/opcode_table.json numbers its bits. -/
def decodeTableWord (nbits w : Nat) : Option Instr :=
  match decodeBytes (tableBytes nbits w) with
  | .ok (i, _) => some i
  | .error _ => none

end Sys2Proof
end

