-- ==== Sys2Proof/Config.lean ====
section
/-! DEFINITION. What an implementation fixes: the constants the source fixes, and the parameters of 00_scope R9 as plain
data (`Config.Params`), which a claim quantifies over; and the free value of the model, the random byte. Their default
values are in Machine/Defaults.lean. -/

namespace Sys2Proof.Config

/-- `MEM_SIZE` (20_memory R60). -/
def memSize : Nat := 4096
/-- `PROG_BASE` (20_memory R68). -/
def progBase : Nat := 0x200
/-- `PROG_MAX` (70_reset_and_hazards R363). -/
def progMax : Nat := 3584
/-- `GLYPH_BASE` (20_memory R68). -/
def glyphBase : Nat := 0x050
/-- `STACK_DEPTH` (10_state R24). -/
def stackDepth : Nat := 16
/-- `FB_W` (44_display R230). -/
def fbWidth : Nat := 64
/-- `FB_H` (44_display R230). -/
def fbHeight : Nat := 32

/-- `I_BITS`, admissible 12..16 (10_state R22, decision D5). -/
inductive IBits where
  | b12 | b13 | b14 | b15 | b16
  deriving DecidableEq, Repr

/-- The width `I_BITS` stands for. -/
def IBits.width : IBits → Nat
  | .b12 => 12
  | .b13 => 13
  | .b14 => 14
  | .b15 => 15
  | .b16 => 16

/-- `MUL_HIGH_TO`: which register gets the product's high byte (43_extended R204, D19). -/
inductive MulHighTo where
  | vf | vx
  deriving DecidableEq, Repr

/-- `BCD16_PAIR`: which register is the pair's high byte (43_extended R206, D21). -/
inductive Bcd16Pair where
  | vxHi | vyHi
  deriving DecidableEq, Repr

/-- `KEY_INDEX_POLICY` for VX ≥ 16 (45_keypad R250, D23). -/
inductive KeyIndexPolicy where
  | fault | lowNibble
  deriving DecidableEq, Repr

/-- `GLYPH_INDEX_POLICY` for VX ≥ 16 (46_memory_index R272, D24). -/
inductive GlyphIndexPolicy where
  | fault | lowNibble | unmasked
  deriving DecidableEq, Repr

/-- `REL_SKIP_COND` (43_extended R201, D18) as data: for each of 5XY1, 5XY2 and 5XY3, the pairs (VX, VY) at which its
relation holds. Every predicate of {1,2,3} × u8 × u8 is one of these. -/
structure RelSkip where
  rel1 : List (Byte × Byte)
  rel2 : List (Byte × Byte)
  rel3 : List (Byte × Byte)
  deriving DecidableEq, Repr

/-- What `FX94_SEM(X, state)` may read: the registers and memory (43_extended R207, D22). The call stack and sp are not among
them: a program reads them only through 00EE and 2NNN (10_state R24, R30), nor are the timers (R25). -/
structure Fx94Query where
  x : RegIx
  v : Vector Byte 16
  i : Word
  pc : Word
  mem : List Host.Cell
  deriving DecidableEq, Repr

/-- What `FX94_SEM` may give: the addresses it reads, and writes to V registers, I and memory only (R207). -/
structure Fx94Effect where
  reads : List Nat
  vWrites : List (RegIx × Byte)
  iWrite : Option Nat
  memWrites : List Host.Cell
  deriving DecidableEq, Repr

/-- `FX94_SEM` as data: a finite part of the effect function, by its arguments. A query it does not list is given no
meaning (R207's default). One instruction step asks one query, so a finite list covers any function on any finite run. -/
abbrev Fx94Sem := List (Fx94Query × Fx94Effect)

/-- The parameters of 00_scope R9 that are not fixed by the source. -/
structure Params where
  /-- `I_BITS` (D5). -/
  iBits : IBits
  /-- `GLYPH_TABLE`, 80 bytes: what `init` copies to 0x050 (70_reset_and_hazards R361, D25). -/
  glyphTable : Vector Byte 80
  /-- `LOAD_STORE_INCREMENTS_I` (46_memory_index R276, D31). -/
  loadStoreIncrementsI : Bool
  /-- `SHL_FLAG_NORMALISED` (41_arith_logic R141, D32). -/
  shlFlagNormalised : Bool
  /-- `REL_SKIP_COND`; `none` is `no meaning given` (43_extended R201, D18). -/
  relSkipCond : Option RelSkip
  /-- `MUL_HIGH_TO` (D19). -/
  mulHighTo : MulHighTo
  /-- `BCD16_PAIR` (D21). -/
  bcd16Pair : Bcd16Pair
  /-- `FX94_SEM`; the empty list gives FX94 no meaning (D22). -/
  fx94Sem : Fx94Sem
  /-- `KEY_INDEX_POLICY` (D23). -/
  keyIndexPolicy : KeyIndexPolicy
  /-- `GLYPH_INDEX_POLICY` (D24). -/
  glyphIndexPolicy : GlyphIndexPolicy
  /-- `DRAW_ORIGIN_SNAPSHOT` (44_display R231, D26). -/
  drawOriginSnapshot : Bool
  /-- `RESET_REDRAW` (10_state R35, D35). -/
  resetRedraw : Bool
  deriving DecidableEq, Repr

/-- FREE VALUE (log 5): the random byte of the n-th successful step, where the host presents none. CXNN's `r` is `a draw
under no law` (41_arith_logic R142, D16), so nothing is known of this function. -/
opaque freeRnd : Nat → Byte

end Sys2Proof.Config
end

