-- ==== Sys2Proof/Machine/Defaults.lean ====
section
/-! DEFINITION. The default of each parameter of 00_scope R9, and the glyph table's default bytes (70_reset_and_hazards
R361). -/

namespace Sys2Proof.Machine

/-- Glyphs 0..3 of the default table (R361). PRESUMED (log 7): the spec takes the conventional font. -/
def glyphs0to3 : List Byte :=
  [0xF0, 0x90, 0x90, 0x90, 0xF0] ++ [0x20, 0x60, 0x20, 0x20, 0x70] ++
  [0xF0, 0x10, 0xF0, 0x80, 0xF0] ++ [0xF0, 0x10, 0xF0, 0x10, 0xF0]

/-- Glyphs 4..7 of the default table (R361). -/
def glyphs4to7 : List Byte :=
  [0x90, 0x90, 0xF0, 0x10, 0x10] ++ [0xF0, 0x80, 0xF0, 0x10, 0xF0] ++
  [0xF0, 0x80, 0xF0, 0x90, 0xF0] ++ [0xF0, 0x10, 0x20, 0x40, 0x40]

/-- Glyphs 8..B of the default table (R361). -/
def glyphs8toB : List Byte :=
  [0xF0, 0x90, 0xF0, 0x90, 0xF0] ++ [0xF0, 0x90, 0xF0, 0x10, 0xF0] ++
  [0xF0, 0x90, 0xF0, 0x90, 0x90] ++ [0xE0, 0x90, 0xE0, 0x90, 0xE0]

/-- Glyphs C..F of the default table (R361). -/
def glyphsCtoF : List Byte :=
  [0xF0, 0x80, 0x80, 0x80, 0xF0] ++ [0xE0, 0x90, 0x90, 0x90, 0xE0] ++
  [0xF0, 0x80, 0xF0, 0x80, 0xF0] ++ [0xF0, 0x80, 0xF0, 0x80, 0x80]

/-- The default `GLYPH_TABLE`: glyph d is its bytes 5·d to 5·d + 4 (R361, D25). -/
def defaultGlyphTable : List Byte := glyphs0to3 ++ glyphs4to7 ++ glyphs8toB ++ glyphsCtoF

/-- Every parameter at the default R9 states (log 2); `REL_SKIP_COND` and `FX94_SEM`, which R9 leaves OPEN, not supplied
(43_extended R201, R207; logs 3 and 4). -/
def defaultParams : Config.Params where
  iBits := .b16
  glyphTable := Vector.ofFn fun k => defaultGlyphTable.getD k.val 0
  loadStoreIncrementsI := false
  shlFlagNormalised := false
  relSkipCond := none
  mulHighTo := .vf
  bcd16Pair := .vxHi
  fx94Sem := []
  keyIndexPolicy := .fault
  glyphIndexPolicy := .fault
  drawOriginSnapshot := true
  resetRedraw := true

end Sys2Proof.Machine
end

