-- ==== Sys2Proof/Machine/State.lean ====
section
/-! DEFINITION. The state of the core (10_state), its failures (60_exceptions R320) and its value after reset (R35). -/

namespace Sys2Proof.Machine

/-- Memory as (address, byte) pairs: addresses strictly rising, none at or above `MEM_SIZE`, no byte equal to what an
unlisted address reads as (`Memory.wf` in Ops.lean). -/
abbrev Memory := List Host.Cell

/-- The reason of an `Unmodelled` failure (60_exceptions R320, R326). -/
inductive Reason where
  /-- `REL_SKIP_1`: 5XY1 with no relation supplied (43_extended R201). -/
  | relSkip1
  /-- `REL_SKIP_2`: 5XY2 (R202). -/
  | relSkip2
  /-- `REL_SKIP_3`: 5XY3 (R203). -/
  | relSkip3
  /-- `FX94`: FX94 with no effect supplied (R207). -/
  | fx94
  /-- `KEY_INDEX`: EX9E or EXA1 with VX ≥ 16 under the `fault` policy (45_keypad R250). -/
  | keyIndex
  /-- `GLYPH_INDEX`: FX29 with VX ≥ 16 under the `fault` policy (46_memory_index R272). -/
  | glyphIndex
  deriving DecidableEq, Repr

/-- The failure kinds of a step, with their information (60_exceptions R320). Each is the spec's own failure, delivered to
the host with the state unchanged (R327), so each is exact for the spec's machine. -/
inductive Fault where
  /-- Code 1, raised by the decode alone, for the words of 30_encoding R96 (R321). Safe: the spec's own failure. -/
  | unsupportedOpcode (w : Word)
  /-- Code 2, raised by the fetch, DXYN, FX33, FX55, FX65, 9XY3 and FX94 at the lowest failing address (R322). Safe: the
  spec's own failure. -/
  | memoryOutOfBounds (addr : Nat)
  /-- Code 3, raised by 2NNN at sp = 16 (R323). Safe: the spec's own failure. -/
  | stackOverflow
  /-- Code 4, raised by 00EE at sp = 0 (R324). Safe: the spec's own failure. -/
  | stackUnderflow
  /-- Code 5, raised by 9XY2 with VY = 0 (R325). Safe: the spec's own failure. -/
  | divideByZero
  /-- Code 6, raised by 5XY1–5XY3, FX94, EX9E, EXA1 and FX29 where the configuration gives no meaning (R326). Safe: `errs
  toward unprovable`. -/
  | unmodelled (reason : Reason)
  deriving DecidableEq, Repr

/-- Why the model has no meaning for an instruction. No meaning of this model refuses. -/
inductive Refusal where
  /-- Raised by an arm of `exec` whose instruction has no meaning yet; safe. No arm raises it now. -/
  | notModelled (mnemonic : String)
  deriving DecidableEq, Repr

/-- The core's state: every component of 10_state, and the fields of the model that INVENTORY.md names. -/
structure State where
  /-- V0..VF (R20). -/
  v : Vector Byte 16
  /-- I (R22), below 2^`I_BITS`. -/
  i : Word
  /-- The address of the instruction being executed (R23). -/
  pc : Word
  /-- `stack[0..15]`; the entries from sp up are stale (R24). -/
  stack : Vector Word 16
  /-- How many entries are valid, 0..16 (R24). -/
  sp : Fin 17
  /-- The delay timer DT (R25). -/
  dt : Byte
  /-- The sound timer ST (R25). -/
  st : Byte
  /-- Memory, 4096 bytes (20_memory R60). -/
  mem : Memory
  /-- The framebuffer, row-major as its port exposes it: pixel (x, y) is bit y·64 + x, 1 is set (R26, 60_exceptions R336). -/
  fb : BitVec 2048
  /-- `needs redraw` (R27). -/
  redraw : Bool
  /-- `needs sound` (R28). -/
  sound : Bool
  /-- The keypad latch: slot k is true while key k is pressed (R29). -/
  keys : Vector Bool 16
  /-- The model's sticky fault mark (R32, 60_exceptions R327): set by the step transaction of Ports.lean, cleared by init
  and reset. -/
  faultMark : Bool
  /-- The configuration of 00_scope R9, fixed for a run. -/
  cfg : Config.Params
  /-- The byte the host has presented on the step's random input (30_encoding R100), if it has. -/
  rndIn : Option Byte
  /-- The model's own counter of successful steps: the argument of the free value `Config.freeRnd` (log 5). -/
  drawIndex : Nat
  deriving DecidableEq, Repr

/-- What a meaning and a step answer (60_exceptions R320). -/
abbrev Result := Host.Outcome State Fault Refusal

/-- The machine right after power-up reset: the state `init` gives (10_state R35, 70_reset_and_hazards R360; log 1), with
every parameter at its default. Memory lists nothing: unlisted bytes read as `init` leaves them (`Memory.unlisted`). -/
def State.reset : State where
  v := Vector.replicate 16 0
  i := 0
  pc := 0x200
  stack := Vector.replicate 16 0
  sp := 0
  dt := 0
  st := 0
  mem := []
  fb := 0
  redraw := false
  sound := false
  keys := Vector.replicate 16 false
  faultMark := false
  cfg := defaultParams
  rndIn := none
  drawIndex := 0

end Sys2Proof.Machine
end

