-- ==== Sys2Proof/Machine/Ops.lean ====
section
/-! DEFINITION. The named operations over memory, registers, the stack, the timers and the framebuffer (10_state,
20_memory), the delivery of a failure (60_exceptions R327), and the parts of a step that stand around the instruction:
fetch (30_encoding R91), tick (60_exceptions R333). -/

namespace Sys2Proof.Machine

/-! ## Failures -/

/-- Taking a failure, the only exception there is: the step ends with it, and `all state` stays `as it was before the step`.
Nothing is saved, no vector is taken, and there is no return from it (60_exceptions R327, R329; 00_scope R13; log 8). -/
def raise (f : Fault) : Result := .fault f

/-! ## Memory -/

/-- What an address that memory does not list reads as: what `init` puts there, the default glyph table at 0x050–0x09F and 0
elsewhere (10_state R35, 70_reset_and_hazards R360, R361; log 7). -/
def Memory.unlisted (a : Nat) : Byte :=
  if Config.glyphBase ≤ a then defaultGlyphTable.getD (a - Config.glyphBase) 0 else 0

/-- The byte at an address (20_memory R60, R67). -/
def Memory.byteAt (m : Memory) (a : Nat) : Byte :=
  match m with
  | [] => Memory.unlisted a
  | (c, b) :: rest => if c = a then b else Memory.byteAt rest a

/-- Put one byte; a byte equal to what the address reads as unlisted takes its entry away (20_memory R67). -/
def Memory.writeByte (m : Memory) (a : Nat) (b : Byte) : Memory :=
  match m with
  | [] => if b = Memory.unlisted a then [] else [(a, b)]
  | (c, d) :: rest =>
    if a < c then (if b = Memory.unlisted a then (c, d) :: rest else (a, b) :: (c, d) :: rest)
    else if a = c then (if b = Memory.unlisted a then rest else (a, b) :: rest)
    else (c, d) :: Memory.writeByte rest a b

/-- The n bytes at a, a+1, ... (00_scope R12). -/
def Memory.readBytes (m : Memory) (a n : Nat) : List Byte := (List.range n).map fun k => m.byteAt (a + k)

/-- Bytes written to a, a+1, ... in rising order (20_memory R64). -/
def Memory.writeBytes (m : Memory) (a : Nat) (bs : List Byte) : Memory :=
  match bs with
  | [] => m
  | b :: rest => Memory.writeBytes (m.writeByte a b) (a + 1) rest

/-- The canonical form, of entries at or above address lo. -/
def Memory.wfFrom (lo : Nat) (m : Memory) : Bool :=
  match m with
  | [] => true
  | (a, b) :: rest =>
    decide (lo ≤ a) && decide (a < Config.memSize) && (b != Memory.unlisted a) && Memory.wfFrom (a + 1) rest

/-- Memory is in canonical form: addresses strictly rising, below `MEM_SIZE`, none listed at its unlisted byte. -/
def Memory.wf (m : Memory) : Bool := Memory.wfFrom 0 m

/-- The bounds check of an access to the n bytes from a: the lowest failing address, if one fails. The address is a full
integer, never wrapped; an access of 0 bytes cannot fail (20_memory R61, R62). -/
def outOfBounds (a n : Nat) : Option Nat :=
  if n = 0 ∨ a + n ≤ Config.memSize then none else some (max a Config.memSize)

/-- `MemRead(a, n)` and what follows it: the check first (00_scope R12). -/
def readThen (s : State) (a n : Nat) (k : List Byte → Result) : Result :=
  match outOfBounds a n with
  | some e => raise (.memoryOutOfBounds e)
  | none => k (s.mem.readBytes a n)

/-- `MemWrite(a, n, bs)` and what follows it: the check is `made before any byte is written` (00_scope R12). -/
def writeThen (s : State) (a : Nat) (bs : List Byte) (k : State → Result) : Result :=
  match outOfBounds a bs.length with
  | some e => raise (.memoryOutOfBounds e)
  | none => k { s with mem := s.mem.writeBytes a bs }

/-! ## Registers -/

/-- `V[x]` (00_scope R12, 10_state R20). -/
def State.reg (s : State) (x : RegIx) : Byte := s.v[x.toNat]'x.isLt

/-- `V[x] <- b`; the value is 8 bits wide, so it is the value mod 256 (10_state R34). -/
def State.setReg (s : State) (x : RegIx) (b : Byte) : State := { s with v := s.v.set x.toNat b x.isLt }

/-- A result and a flag: `the flag write is the last write` (10_state R21, D8). -/
def State.setRegFlag (s : State) (x : RegIx) (result flag : Byte) : State := (s.setReg x result).setReg vf flag

/-- `I <- n`, taken mod 2^`I_BITS` (10_state R22, 00_scope R12). -/
def State.setI (s : State) (n : Nat) : State := { s with i := BitVec.ofNat 16 (n % 2 ^ s.cfg.iBits.width) }

/-- V[k], V[k+1], ... written from a list, in rising order (46_memory_index R275). -/
def State.loadRegs (s : State) (k : Nat) (bs : List Byte) : State :=
  match bs with
  | [] => s
  | b :: rest => (s.setReg (BitVec.ofNat 4 k) b).loadRegs (k + 1) rest

/-! ## The next pc (30_encoding R101) -/

/-- `pc <- t` (42_control_flow R180: unchecked). -/
def State.goto (s : State) (t : Word) : State := { s with pc := t }

/-- `pc <- pc + 2`, the sequential case. -/
def State.advance (s : State) : State := s.goto (s.pc + 2)

/-- The skip rule: pc + 4 if the condition holds, else pc + 2 (41_arith_logic R143). -/
def State.skipIf (s : State) (c : Bool) : State := s.goto (if c then s.pc + 4 else s.pc + 2)

/-! ## The call stack (10_state R24) -/

/-- push(v): StackOverflow at sp = 16, else `stack[sp] <- v` and then sp + 1. -/
def pushThen (s : State) (v : Word) (k : State → Result) : Result :=
  if h : s.sp.val < 16 then
    k { s with stack := s.stack.set s.sp.val v h, sp := ⟨s.sp.val + 1, Nat.succ_lt_succ h⟩ }
  else raise .stackOverflow

/-- pop(): StackUnderflow at sp = 0, else sp - 1 and the value `stack[sp]`. -/
def popThen (s : State) (k : Word → State → Result) : Result :=
  if h : 0 < s.sp.val then
    k (s.stack[s.sp.val - 1]'(by omega)) { s with sp := ⟨s.sp.val - 1, by omega⟩ }
  else raise .stackUnderflow

/-! ## The framebuffer (10_state R26, 44_display R230, R231) -/

/-- Pixel (x, y) has index y·64 + x (60_exceptions R336). -/
def pixelIndex (x y : Nat) : Nat := y * Config.fbWidth + x

/-- `fb[x][y]`. -/
def pixel (fb : BitVec 2048) (x y : Nat) : Bool := fb.getLsbD (pixelIndex x y)

/-- `fb[x][y] <- fb[x][y] XOR 1`. -/
def flipPixel (fb : BitVec 2048) (x y : Nat) : BitVec 2048 := fb ^^^ BitVec.twoPow 2048 (pixelIndex x y)

/-- One set bit of a sprite: note a collision with a pixel already set, and toggle the pixel (R231). -/
def drawPixel (x y : Nat) (d : BitVec 2048 × Bool) : BitVec 2048 × Bool := (flipPixel d.1 x y, d.2 || pixel d.1 x y)

/-- Column c of a row byte is its bit 7 - c: `bit 7 is the leftmost column` (R230). -/
def rowBit (row : Byte) (c : Nat) : Bool := row.getLsbD (7 - c)

/-- One sprite row at framebuffer row y, columns 0..7 from x0, wrapping (R231). -/
def drawRow (x0 y : Nat) (row : Byte) (d : BitVec 2048 × Bool) : BitVec 2048 × Bool :=
  (List.range 8).foldl
    (fun acc c => if rowBit row c then drawPixel ((x0 + c) % Config.fbWidth) y acc else acc) d

/-- The sprite's rows from row y0 down, wrapping (R231). -/
def drawRows (x0 y0 : Nat) (rows : List Byte) (d : BitVec 2048 × Bool) : BitVec 2048 × Bool :=
  match rows with
  | [] => d
  | row :: rest => drawRows x0 (y0 + 1) rest (drawRow x0 (y0 % Config.fbHeight) row d)

/-! ## The random byte -/

/-- `draw_rnd()`: the byte presented on the step's random input, else the step's free value (41_arith_logic R142; logs 5
and 6). -/
def State.drawRnd (s : State) : Byte := s.rndIn.getD (Config.freeRnd s.drawIndex)

/-! ## Around the instruction -/

/-- The fetch: the two bytes at pc and pc + 1, `b0` first; it does not change pc (30_encoding R91). -/
def State.fetchWord (s : State) : Except Fault Word :=
  match outOfBounds s.pc.toNat 2 with
  | some e => .error (.memoryOutOfBounds e)
  | none => .ok (wordOfBytes (s.mem.byteAt s.pc.toNat) (s.mem.byteAt (s.pc.toNat + 1)))

/-- A decoder's rejection as the failure it is (60_exceptions R321). -/
def decodeFault : DecodeError → Fault
  | .unsupportedOpcode w => .unsupportedOpcode w
  | .truncated bytes => .unsupportedOpcode (wordOfBytes (bytes.getD 0 0) (bytes.getD 1 0))

/-- Fetch, then decode: the first two phases of a step, in the order of R328 (30_encoding R100). -/
def State.fetchInstr (s : State) : Except Fault Instr :=
  match s.fetchWord with
  | .error f => .error f
  | .ok w =>
    match decode w with
    | .error e => .error (decodeFault e)
    | .ok i => .ok i

/-- A timer's decrement: `never below 0` (10_state R25). -/
def countDown (t : Byte) : Byte := if t = 0 then 0 else t - 1

/-- `tick()` (60_exceptions R333). -/
def State.tick (s : State) : State :=
  { s with sound := s.sound || s.st == 1, dt := countDown s.dt, st := countDown s.st }

/-- The end of a successful step: the tick (30_encoding R102), and the step's random input is used up (R100; log 6). -/
def State.endStep (s : State) : State := { s.tick with rndIn := none, drawIndex := s.drawIndex + 1 }

/-- The step's answer from its instruction's: only a successful instruction is followed by the tick (R100, D33). -/
def finishStep (r : Result) : Result :=
  match r with
  | .next t => .next t.endStep
  | .fault f => .fault f
  | .refused q => .refused q

/-- A word stored at pc, where the fetch reads it, if both its bytes are inside memory. -/
def State.placeWord (s : State) (bs : List Byte) : State :=
  match outOfBounds s.pc.toNat bs.length with
  | some _ => s
  | none => { s with mem := s.mem.writeBytes s.pc.toNat bs }

end Sys2Proof.Machine
end

