-- ==== Sys2Proof/Machine/Operands.lean ====
section
/-! DEFINITION. The operand forms: addresses, key and glyph indices, decimal digits, the register pair and the register
block (30_encoding R93; 45_keypad R250; 46_memory_index R272–R274; 43_extended R201, R206, R207). -/

namespace Sys2Proof.Machine

/-- `zext_16(NNN)` (30_encoding R93). -/
def zextAddr (nnn : BitVec 12) : Word := nnn.setWidth 16

/-- `NNN + V0` of BNNN: no wrap, no 12-bit mask (42_control_flow R184). -/
def offsetAddr (nnn : BitVec 12) (v0 : Byte) : Word := nnn.setWidth 16 + v0.setWidth 16

/-- `key_index(a)`; `none` is where the rule raises `Unmodelled(KEY_INDEX)` (45_keypad R250). -/
def keyIndex (p : Config.KeyIndexPolicy) (a : Byte) : Option (Fin 16) :=
  if h : a.toNat < 16 then some ⟨a.toNat, h⟩
  else
    match p with
    | .fault => none
    | .lowNibble => some ⟨a.toNat % 16, Nat.mod_lt _ (by decide)⟩

/-- The glyph FX29 addresses; `none` is where the rule raises `Unmodelled(GLYPH_INDEX)` (46_memory_index R272). -/
def glyphIndex (p : Config.GlyphIndexPolicy) (a : Byte) : Option Nat :=
  if a.toNat < 16 then some a.toNat
  else
    match p with
    | .fault => none
    | .lowNibble => some (a.toNat % 16)
    | .unmasked => some a.toNat

/-- `GLYPH_BASE + 5 * a` (R272). -/
def glyphAddress (a : Nat) : Nat := Config.glyphBase + 5 * a

/-- One decimal digit of v as a byte. -/
def digit (v place : Nat) : Byte := BitVec.ofNat 8 (v / place % 10)

/-- The three digits FX33 stores, most significant first (R273). -/
def bcd3 (a : Byte) : List Byte := [digit a.toNat 100, digit a.toNat 10, digit a.toNat 1]

/-- The five digits 9XY3 stores, most significant first (43_extended R206). -/
def bcd5 (v : Nat) : List Byte := [digit v 10000, digit v 1000, digit v 100, digit v 10, digit v 1]

/-- The register pair as a 16-bit value (R206, D21). -/
def pairValue (p : Config.Bcd16Pair) (a b : Byte) : Nat :=
  match p with
  | .vxHi => a.toNat * 256 + b.toNat
  | .vyHi => b.toNat * 256 + a.toNat

/-- `[V[0], ..., V[X]]` (46_memory_index R274). -/
def State.regBlock (s : State) (x : RegIx) : List Byte :=
  (List.range (x.toNat + 1)).map fun k => s.reg (BitVec.ofNat 4 k)

/-- I after FX55 and FX65 (R276): unchanged, or I + X + 1 in the compatibility mode. -/
def State.blockI (s : State) (x : RegIx) : State :=
  if s.cfg.loadStoreIncrementsI then s.setI (s.i.toNat + x.toNat + 1) else s

/-- The lowest pressed key (45_keypad R253). -/
def lowestKey (keys : Vector Bool 16) : Option (Fin 16) := (List.finRange 16).find? fun k => keys[k.val]

/-- The relation of 5XY1, 5XY2 or 5XY3 at (a, b), given its extension (43_extended R201; log 3). -/
def relHolds (rel : List (Byte × Byte)) (a b : Byte) : Bool := rel.contains (a, b)

/-- The arguments of `FX94_SEM` at a state: no stack entry and no sp among them (R207, 10_state R24, R30; log 4). -/
def State.fx94Query (s : State) (x : RegIx) : Config.Fx94Query :=
  ⟨x, s.v, s.i, s.pc, s.mem⟩

/-- What `FX94_SEM` gives there; `none` is its default, no meaning (R207; log 4). -/
def fx94Effect (sem : Config.Fx94Sem) (q : Config.Fx94Query) : Option Config.Fx94Effect :=
  (sem.find? fun e => e.1 == q).map (·.2)

/-- The first address of an FX94 effect outside memory, reads before writes (R207, 60_exceptions R328; log 16). -/
def fx94OutOfBounds (e : Config.Fx94Effect) : Option Nat :=
  (e.reads ++ e.memWrites.map (·.1)).find? fun a => decide (Config.memSize ≤ a)

/-- Apply an FX94 effect: V registers, I and memory only (R207). -/
def State.applyFx94 (s : State) (e : Config.Fx94Effect) : State :=
  let s1 := e.vWrites.foldl (fun t w => t.setReg w.1 w.2) s
  let s2 := e.iWrite.elim s1 s1.setI
  { s2 with mem := e.memWrites.foldl (fun m c => m.writeByte c.1 c.2) s2.mem }

end Sys2Proof.Machine
end

