-- ==== Sys2Proof/Machine/Flags.lean ====
section
/-! DEFINITION. The computations of VF as a flag, and the two bytes of a product (41_arith_logic R130; 43_extended R204,
R205; 44_display R231). -/

namespace Sys2Proof.Machine

/-- A flag byte: 1 or 0. -/
def flagByte (c : Bool) : Byte := if c then 1 else 0

/-- The carry of 8XY4: `a + b > 255` (R137). -/
def carryFlag (a b : Byte) : Byte := flagByte (decide (a.toNat + b.toNat > 255))

/-- The comparison of 8XY5 and 8XY7, strict: 0 when the operands are equal (R138, R140; 90_conflicts C1). -/
def greaterFlag (a b : Byte) : Byte := flagByte (decide (a.toNat > b.toNat))

/-- The bit 8XY6 shifts out: `a & 0x01` (R139). -/
def shrFlag (a : Byte) : Byte := a &&& 0x01

/-- The flag of 8XYE: the masked byte, or 0/1 with `SHL_FLAG_NORMALISED` (R141, D32). -/
def shlFlag (normalised : Bool) (a : Byte) : Byte := if normalised then (a >>> 7) &&& 0x01 else a &&& 0x80

/-- The low byte of the exact product (R204). -/
def productLow (a b : Byte) : Byte := BitVec.ofNat 8 (a.toNat * b.toNat % 256)

/-- The high byte of the exact product (R204). -/
def productHigh (a b : Byte) : Byte := BitVec.ofNat 8 (a.toNat * b.toNat / 256)

/-- What 9XY1 writes to VX, and then to VF (R204, D19). -/
def productSplit (p : Config.MulHighTo) (a b : Byte) : Byte × Byte :=
  match p with
  | .vf => (productLow a b, productHigh a b)
  | .vx => (productHigh a b, productLow a b)

end Sys2Proof.Machine
end

