-- ==== Sys2Proof/Machine/ArithLogic.lean ====
section
/-! DEFINITION. Arithmetic, logic, the random byte and the skips (41_arith_logic R131–R147). No rule here accesses memory,
so none raises. -/

namespace Sys2Proof.Machine

/-- A result without a flag, then pc + 2. -/
def writeReg (s : State) (x : RegIx) (b : Byte) : Result := .next (s.setReg x b).advance

/-- A result and then the flag, then pc + 2 (D8). -/
def writeRegFlag (s : State) (x : RegIx) (result flag : Byte) : Result := .next (s.setRegFlag x result flag).advance

/-- A skip on a condition (R143). -/
def skip (s : State) (c : Bool) : Result := .next (s.skipIf c)

/-- 6XNN (R131). -/
def execLdImm (x : RegIx) (nn : Byte) (s : State) : Result := writeReg s x nn

/-- 7XNN (R132); the sum wraps at 8 bits, no carry. -/
def execAddImm (x : RegIx) (nn : Byte) (s : State) : Result := writeReg s x (s.reg x + nn)

/-- 8XY0 (R133). -/
def execLdReg (x y : RegIx) (s : State) : Result := writeReg s x (s.reg y)

/-- 8XY1 (R134). -/
def execOrReg (x y : RegIx) (s : State) : Result := writeReg s x (s.reg x ||| s.reg y)

/-- 8XY2 (R135). -/
def execAndReg (x y : RegIx) (s : State) : Result := writeReg s x (s.reg x &&& s.reg y)

/-- 8XY3 (R136). -/
def execXorReg (x y : RegIx) (s : State) : Result := writeReg s x (s.reg x ^^^ s.reg y)

/-- 8XY4 (R137). -/
def execAddReg (x y : RegIx) (s : State) : Result :=
  writeRegFlag s x (s.reg x + s.reg y) (carryFlag (s.reg x) (s.reg y))

/-- 8XY5 (R138). -/
def execSub (x y : RegIx) (s : State) : Result :=
  writeRegFlag s x (s.reg x - s.reg y) (greaterFlag (s.reg x) (s.reg y))

/-- 8XY6 (R139); VY is never read. -/
def execShr (x _y : RegIx) (s : State) : Result := writeRegFlag s x (s.reg x >>> 1) (shrFlag (s.reg x))

/-- 8XY7 (R140). -/
def execSubn (x y : RegIx) (s : State) : Result :=
  writeRegFlag s x (s.reg y - s.reg x) (greaterFlag (s.reg y) (s.reg x))

/-- 8XYE (R141); VY is never read. -/
def execShl (x _y : RegIx) (s : State) : Result :=
  writeRegFlag s x (s.reg x <<< 1) (shlFlag s.cfg.shlFlagNormalised (s.reg x))

/-- CXNN (R142). -/
def execRnd (x : RegIx) (nn : Byte) (s : State) : Result := writeReg s x (s.drawRnd &&& nn)

/-- 3XNN (R144). -/
def execSeImm (x : RegIx) (nn : Byte) (s : State) : Result := skip s (s.reg x == nn)

/-- 4XNN (R145). -/
def execSneImm (x : RegIx) (nn : Byte) (s : State) : Result := skip s (s.reg x != nn)

/-- 5XY0 (R146). -/
def execSeReg (x y : RegIx) (s : State) : Result := skip s (s.reg x == s.reg y)

/-- 9XY0 (R147). -/
def execSneReg (x y : RegIx) (s : State) : Result := skip s (s.reg x != s.reg y)

end Sys2Proof.Machine
end

