-- ==== Sys2Proof/Machine/ControlFlow.lean ====
section
/-! DEFINITION. Jumps, calls and returns (42_control_flow R180–R184). -/

namespace Sys2Proof.Machine

/-- 00EE (R181): the popped value as it stands, no + 2. -/
def execRet (s : State) : Result := popThen s fun v t => .next (t.goto v)

/-- 1NNN (R182). -/
def execJp (nnn : BitVec 12) (s : State) : Result := .next (s.goto (zextAddr nnn))

/-- 2NNN (R183): push pc + 2, then jump. -/
def execCall (nnn : BitVec 12) (s : State) : Result := pushThen s (s.pc + 2) fun t => .next (t.goto (zextAddr nnn))

/-- BNNN (R184): the register added is always V0. -/
def execJpV0 (nnn : BitVec 12) (s : State) : Result := .next (s.goto (offsetAddr nnn (s.reg 0)))

end Sys2Proof.Machine
end

