-- ==== Sys2Proof/Machine/Display.lean ====
section
/-! DEFINITION. The display instructions (44_display R231, R232). -/

namespace Sys2Proof.Machine

/-- The state DXYN reads its origin from: before VF is cleared, or after (`DRAW_ORIGIN_SNAPSHOT`, R231, D26). -/
def drawOrigin (s : State) : State := if s.cfg.drawOriginSnapshot then s else s.setReg vf 0

/-- DXYN (R231): the whole sprite is read before VF or a pixel changes; the redraw flag is always raised. -/
def execDrw (x y : RegIx) (n : BitVec 4) (s : State) : Result :=
  readThen s s.i.toNat n.toNat fun rows =>
    let o := drawOrigin s
    let d := drawRows (o.reg x).toNat (o.reg y).toNat rows (s.fb, false)
    let t := s.setReg vf (flagByte d.2)
    .next ({ t with fb := d.1, redraw := true }).advance

/-- 00E0 (R232). -/
def execCls (s : State) : Result := .next ({ s with fb := 0, redraw := true }).advance

end Sys2Proof.Machine
end

