-- ==== Sys2Proof/Machine/Extended.lean ====
section
/-! DEFINITION. The extended compatibility instructions (43_extended R200–R207). -/

namespace Sys2Proof.Machine

/-- A relational skip on a supplied relation; with none, the spec's failure (R201, 60_exceptions R326; log 3). -/
def relSkip (s : State) (rel : Option (List (Byte × Byte))) (reason : Reason) (x y : RegIx) : Result :=
  match rel with
  | none => raise (.unmodelled reason)
  | some r => .next (s.skipIf (relHolds r (s.reg x) (s.reg y)))

/-- 5XY1 (R201). -/
def execSkr1 (x y : RegIx) (s : State) : Result := relSkip s (s.cfg.relSkipCond.map (·.rel1)) .relSkip1 x y

/-- 5XY2 (R202). -/
def execSkr2 (x y : RegIx) (s : State) : Result := relSkip s (s.cfg.relSkipCond.map (·.rel2)) .relSkip2 x y

/-- 5XY3 (R203). -/
def execSkr3 (x y : RegIx) (s : State) : Result := relSkip s (s.cfg.relSkipCond.map (·.rel3)) .relSkip3 x y

/-- 9XY1 (R204): VX first, VF last. -/
def execMul (x y : RegIx) (s : State) : Result :=
  let p := productSplit s.cfg.mulHighTo (s.reg x) (s.reg y)
  .next (s.setRegFlag x p.1 p.2).advance

/-- 9XY2 (R205): the quotient to VX, the remainder to VF last. -/
def execDiv (x y : RegIx) (s : State) : Result :=
  if s.reg y = 0 then raise .divideByZero
  else .next (s.setRegFlag x (s.reg x / s.reg y) (s.reg x % s.reg y)).advance

/-- 9XY3 (R206). -/
def execBcd16 (x y : RegIx) (s : State) : Result :=
  writeThen s s.i.toNat (bcd5 (pairValue s.cfg.bcd16Pair (s.reg x) (s.reg y))) fun t => .next t.advance

/-- FX94 (R207): the supplied effect, bounds-checked, then pc + 2; with none supplied, the spec's failure (log 4). -/
def execGlyph3 (x : RegIx) (s : State) : Result :=
  match fx94Effect s.cfg.fx94Sem (s.fx94Query x) with
  | none => raise (.unmodelled .fx94)
  | some e =>
    match fx94OutOfBounds e with
    | some a => raise (.memoryOutOfBounds a)
    | none => .next (s.applyFx94 e).advance

end Sys2Proof.Machine
end

