-- ==== Sys2Proof/Machine/Keypad.lean ====
section
/-! DEFINITION. The keypad instructions (45_keypad R250–R253). None writes the latch (90_conflicts C3). -/

namespace Sys2Proof.Machine

/-- A skip on one key's slot being as wanted (R250, R143). -/
def skipOnKey (s : State) (x : RegIx) (pressed : Bool) : Result :=
  match keyIndex s.cfg.keyIndexPolicy (s.reg x) with
  | none => raise (.unmodelled .keyIndex)
  | some k => .next (s.skipIf (s.keys[k.val] == pressed))

/-- EX9E (R251): skip if pressed. -/
def execSkp (x : RegIx) (s : State) : Result := skipOnKey s x true

/-- EXA1 (R252): skip if not pressed. -/
def execSknp (x : RegIx) (s : State) : Result := skipOnKey s x false

/-- FX0A (R253): the lowest pressed key to VX and pc + 2, or pc unchanged while no key is pressed. -/
def execLdVxK (x : RegIx) (s : State) : Result :=
  match lowestKey s.keys with
  | some k => .next (s.setReg x (BitVec.ofNat 8 k.val)).advance
  | none => .next s

end Sys2Proof.Machine
end

