-- ==== Sys2Proof/Machine/MemoryIndex.lean ====
section
/-! DEFINITION. The index register, BCD and the register block (46_memory_index R270–R276). -/

namespace Sys2Proof.Machine

/-- ANNN (R270). -/
def execLdI (nnn : BitVec 12) (s : State) : Result := .next (s.setI nnn.toNat).advance

/-- FX1E (R271); VF is not written. -/
def execAddI (x : RegIx) (s : State) : Result := .next (s.setI (s.i.toNat + (s.reg x).toNat)).advance

/-- FX29 (R272). -/
def execLdF (x : RegIx) (s : State) : Result :=
  match glyphIndex s.cfg.glyphIndexPolicy (s.reg x) with
  | none => raise (.unmodelled .glyphIndex)
  | some a => .next (s.setI (glyphAddress a)).advance

/-- FX33 (R273). -/
def execLdB (x : RegIx) (s : State) : Result :=
  writeThen s s.i.toNat (bcd3 (s.reg x)) fun t => .next t.advance

/-- FX55 (R274). -/
def execLdMemVx (x : RegIx) (s : State) : Result :=
  writeThen s s.i.toNat (s.regBlock x) fun t => .next (t.blockI x).advance

/-- FX65 (R275). -/
def execLdVxMem (x : RegIx) (s : State) : Result :=
  readThen s s.i.toNat (x.toNat + 1) fun bs => .next ((s.loadRegs 0 bs).blockI x).advance

end Sys2Proof.Machine
end

