-- ==== Sys2Proof/Machine/Timers.lean ====
section
/-! DEFINITION. The timer instructions (47_timers R300–R302). The tick that follows in the same step is `State.tick`. -/

namespace Sys2Proof.Machine

/-- FX07 (R300): DT before this step's tick. -/
def execLdVxDt (x : RegIx) (s : State) : Result := .next (s.setReg x s.dt).advance

/-- FX15 (R301). -/
def execLdDtVx (x : RegIx) (s : State) : Result := .next ({ s with dt := s.reg x }).advance

/-- FX18 (R302). -/
def execLdStVx (x : RegIx) (s : State) : Result := .next ({ s with st := s.reg x }).advance

end Sys2Proof.Machine
end

