-- ==== Sys2Proof/Machine/Step.lean ====
section
/-! DEFINITION. The step (30_encoding R100): fetch, decode, execute, tick. -/

namespace Sys2Proof.Machine

/-- One step: `exactly one fetch-decode-execute-timer-tick cycle`; a failure of any part is the step's answer (R100). -/
def step (s : State) : Host.Outcome State Fault Refusal :=
  match s.fetchInstr with
  | .error f => raise f
  | .ok i => finishStep (exec i s)

/-- s with an opcode-table word stored big-endian at pc, where the next step fetches it (log 17). -/
def State.withFetchWord (s : State) (nbits w : Nat) : State := s.placeWord (tableBytes nbits w)

end Sys2Proof.Machine
end

