-- ==== Sys2Proof/Machine/Ports.lean ====
section
/-! DEFINITION. The host's transactions (60_exceptions R334–R338; 70_reset_and_hazards R360–R363): what each does to the
state and what it answers. They happen between steps, one at a time (20_memory R71). -/

namespace Sys2Proof.Machine

/-- The codes of the failure kinds (60_exceptions R320). -/
def faultCode : Fault → BitVec 3
  | .unsupportedOpcode _ => 1
  | .memoryOutOfBounds _ => 2
  | .stackOverflow => 3
  | .stackUnderflow => 4
  | .divideByZero => 5
  | .unmodelled _ => 6

/-- The reason numbers of `Unmodelled` (R338). -/
def reasonNumber : Reason → BitVec 16
  | .relSkip1 => 1
  | .relSkip2 => 2
  | .relSkip3 => 3
  | .fx94 => 4
  | .keyIndex => 5
  | .glyphIndex => 6

/-- The `info` of a failure: the word, the lowest failing address, the reason, or none (R320). -/
def faultInfo : Fault → Option (BitVec 16)
  | .unsupportedOpcode w => some w
  | .memoryOutOfBounds a => some (BitVec.ofNat 16 a)
  | .stackOverflow => none
  | .stackUnderflow => none
  | .divideByZero => none
  | .unmodelled r => some (reasonNumber r)

/-- The failure record: the kind's code, the failing step's pc, the fetched word or none, and the info (R320). -/
structure Failure where
  kind : BitVec 3
  pc : Word
  word : Option Word
  info : Option (BitVec 16)
  deriving DecidableEq, Repr

/-- The record of a failure of the step at s; the state is s itself, since a failed step changes nothing (R320, R327). -/
def failureRecord (s : State) (f : Fault) : Failure where
  kind := faultCode f
  pc := s.pc
  word :=
    match s.fetchWord with
    | .ok w => some w
    | .error _ => none
  info := faultInfo f

/-- The transactions of R338. -/
inductive HostOp where
  | init
  | reset
  | load (bytes : List Byte)
  | writeKeys (keys : Vector Bool 16)
  | step (rnd : Byte)
  | readFb
  | readFlags
  | ackRedraw
  | ackSound
  deriving DecidableEq, Repr

/-- The responses of R338. -/
inductive Response where
  | noResponse
  | ok
  | loadTooLarge
  | failed (f : Failure)
  /-- 2048 bits, row-major (R336). -/
  | pixels (fb : BitVec 2048)
  | flags (redraw sound : Bool)
  /-- A step the model refuses; none does. -/
  | refused (q : Refusal)
  deriving DecidableEq, Repr

/-- `init()` under a configuration: everything zeroed, pc 0x200, the glyph table copied to 0x050 (R360, R361). -/
def initState (cfg : Config.Params) : State :=
  { State.reset with cfg := cfg, mem := Memory.writeBytes [] Config.glyphBase cfg.glyphTable.toList }

/-- `init()` on a machine: its configuration stays, and its free values go on (log 22). -/
def State.initialise (s : State) : State := { initState s.cfg with drawIndex := s.drawIndex }

/-- `reset()`: everything but memory as `init` leaves it, the redraw flag as `RESET_REDRAW` says (R362, 10_state R35). -/
def State.reinitialise (s : State) : State :=
  { State.reset with mem := s.mem, cfg := s.cfg, redraw := s.cfg.resetRedraw, drawIndex := s.drawIndex }

/-- `load(b)`; `none` is LoadTooLarge (R363). -/
def State.loadProgram (s : State) (bytes : List Byte) : Option State :=
  if bytes.length > Config.progMax then none
  else some { s with mem := s.mem.writeBytes Config.progBase bytes }

/-- The step's random input presented (30_encoding R100). -/
def State.presentRnd (s : State) (rnd : Byte) : State := { s with rndIn := some rnd }

/-- A transaction: the state after it and its response (R338). A failed step leaves the state as it was and sets the fault
mark (R327, D42). -/
def transact (op : HostOp) (s : State) : State × Response :=
  match op with
  | .init => (s.initialise, .noResponse)
  | .reset => (s.reinitialise, .noResponse)
  | .load bytes =>
    match s.loadProgram bytes with
    | some t => (t, .ok)
    | none => (s, .loadTooLarge)
  | .writeKeys keys => ({ s with keys := keys }, .noResponse)
  | .step rnd =>
    match step (s.presentRnd rnd) with
    | .next t => (t, .ok)
    | .fault f => ({ s with faultMark := true }, .failed (failureRecord s f))
    | .refused q => (s, .refused q)
  | .readFb => (s, .pixels s.fb)
  | .readFlags => (s, .flags s.redraw s.sound)
  | .ackRedraw => ({ s with redraw := false }, .noResponse)
  | .ackSound => ({ s with sound := false }, .noResponse)

end Sys2Proof.Machine
end

