-- ==== Sys2Proof/Safety.lean ====
section
/-! DEFINITION. What claims are stated in: the invariant of the machine, what a step leaves unchanged, the bits of a sprite,
the record of a failure and the end of a run. -/

namespace Sys2Proof.Machine

/-- The invariant: memory in canonical form (20_memory R60), I below 2^`I_BITS` (10_state R22), pc at most 0x10FE, the
largest value a rule can write (R23), and the return addresses in use at most 0x1000 (R24, 42_control_flow R183). -/
def State.Inv (s : State) : Prop :=
  s.mem.wf = true ∧ s.i.toNat < 2 ^ s.cfg.iBits.width ∧ s.pc.toNat ≤ 0x10FE ∧
    ∀ k : Fin 16, k.val < s.sp.val → s.stack[k.val].toNat ≤ 0x1000

/-- Every V register but those named is unchanged. -/
def KeepsRegs (s t : State) (xs : List RegIx) : Prop := ∀ r, r ∉ xs → t.reg r = s.reg r

/-- Every byte of memory reads as before. -/
def KeepsMem (s t : State) : Prop := ∀ a, t.mem.byteAt a = s.mem.byteAt a

/-- Every byte of memory outside the n bytes from a reads as before. -/
def KeepsMemOutside (s t : State) (a n : Nat) : Prop :=
  ∀ b, b < a ∨ a + n ≤ b → t.mem.byteAt b = s.mem.byteAt b

/-- Nothing but V registers, named ones, and pc is changed: I, the stack, the timers, memory, the framebuffer, the request
flags, the keys and the rest are as before. -/
def OnlyRegs (s t : State) (xs : List RegIx) : Prop :=
  t = { s with v := t.v, pc := t.pc } ∧ KeepsRegs s t xs ∧ KeepsMem s t

/-- Nothing but pc is changed. -/
def OnlyPc (s t : State) : Prop := t = { s with pc := t.pc } ∧ KeepsRegs s t [] ∧ KeepsMem s t

/-- Nothing but I and pc is changed. -/
def OnlyIndex (s t : State) : Prop := t = { s with i := t.i, pc := t.pc } ∧ KeepsRegs s t [] ∧ KeepsMem s t

/-- Nothing but the n bytes of memory from a, and pc, is changed. -/
def OnlyMem (s t : State) (a n : Nat) : Prop :=
  t = { s with mem := t.mem, pc := t.pc } ∧ KeepsRegs s t [] ∧ KeepsMemOutside s t a n

/-- Whether a sprite drawn at origin (x0, y0) has a set bit at pixel (x, y), said without drawing: the column and the row of
the sprite that fall on the pixel under the wrap (44_display R230, R231). -/
def spriteBit (x0 y0 : Nat) (rows : List Byte) (x y : Nat) : Bool :=
  let c := (x + 64 - x0 % 64) % 64
  let r := (y + 32 - y0 % 32) % 32
  decide (c < 8) && decide (r < rows.length) && (rows.getD r 0).getLsbD (7 - c)

/-- The code and the information of the record of a failure, said from the table of 60_exceptions R320 and the reason numbers
of R338 (decision D4) and not from `faultCode`, `faultInfo` and `reasonNumber`. A failing address is shown in 16 bits (log
11). -/
def RecordShows (f : Failure) (g : Fault) : Prop :=
  match g with
  | .unsupportedOpcode w => f.kind.toNat = 1 ∧ f.info = some w
  | .memoryOutOfBounds a => f.kind.toNat = 2 ∧ f.info.map BitVec.toNat = some (a % 65536)
  | .stackOverflow => f.kind.toNat = 3 ∧ f.info = none
  | .stackUnderflow => f.kind.toNat = 4 ∧ f.info = none
  | .divideByZero => f.kind.toNat = 5 ∧ f.info = none
  | .unmodelled .relSkip1 => f.kind.toNat = 6 ∧ f.info.map BitVec.toNat = some 1
  | .unmodelled .relSkip2 => f.kind.toNat = 6 ∧ f.info.map BitVec.toNat = some 2
  | .unmodelled .relSkip3 => f.kind.toNat = 6 ∧ f.info.map BitVec.toNat = some 3
  | .unmodelled .fx94 => f.kind.toNat = 6 ∧ f.info.map BitVec.toNat = some 4
  | .unmodelled .keyIndex => f.kind.toNat = 6 ∧ f.info.map BitVec.toNat = some 5
  | .unmodelled .glyphIndex => f.kind.toNat = 6 ∧ f.info.map BitVec.toNat = some 6

/-- The end of a run: pc addresses a self-jump and no fault mark is set (60_exceptions R342). -/
def State.EndOfRun (s : State) : Prop :=
  s.faultMark = false ∧ ∃ nnn : BitVec 12, s.fetchInstr = .ok (.jp nnn) ∧ zextAddr nnn = s.pc

end Sys2Proof.Machine
end

