-- ==== Sys2Proof/Certificates/Slice0/Obligations.lean ====
section
/-! DEFINITION. The statements about the CHIP-8 core, from the numbered rules of spec/. `OnlyRegs`, `OnlyPc`, `OnlyIndex`,
`OnlyMem` and `KeepsMem` of Safety.lean are the frames: everything they do not name is unchanged. -/

open Sys2Proof Sys2Proof.Machine

/-! ## Encoding and decoding (30_encoding) -/

/-- A word of each family, written out bit by bit from the encodings of the rules, decodes to what it stands for (R95). -/
def Obligations.SpecWordsDecode : Prop :=
  decode 0b0000000011101110#16 = .ok .ret ∧
  decode 0b0110101001000010#16 = .ok (.ldImm 0xA 0x42) ∧
  decode 0b1000001100010111#16 = .ok (.subn 3 1) ∧
  decode 0b0010010000000000#16 = .ok (.call 0x400) ∧
  decode 0b1001000100100010#16 = .ok (.div 1 2) ∧
  decode 0b1101000100100011#16 = .ok (.drw 1 2 3) ∧
  decode 0b1110010110100001#16 = .ok (.sknp 5) ∧
  decode 0b1111001001010101#16 = .ok (.ldMemVx 2) ∧
  decode 0b1111000100011000#16 = .ok (.ldStVx 1)

/-- Decoding an instruction's word gives the instruction back, with every operand at every value of its field (R92–R95). -/
def Obligations.DecodeOfEncode : Prop := ∀ i : Instr, decode (encode i) = .ok i

/-- A word that decodes is the word of the instruction it decodes to: no bit is dropped, the ignored Y of 8XY6 and 8XYE
included (R92, R94). -/
def Obligations.EncodeOfDecode : Prop := ∀ (w : Word) (i : Instr), decode w = .ok i → encode i = w

/-- The decoder gives an instruction exactly for the words outside the table of R96, and rejects the others by name (R95,
R96). -/
def Obligations.DecodeExactlySupported : Prop :=
  ∀ w : Word, (supportedWord w = true ↔ ∃ i, decode w = .ok i) ∧
    (supportedWord w = false ↔ decode w = .error (.unsupportedOpcode w))

/-- R321: a step fails with UnsupportedOpcode exactly where the fetched word is one of R96's, and no word is ignored. -/
def Obligations.UnsupportedOpcodeExactly : Prop :=
  ∀ (s : State) (w : Word),
    step s = .fault (.unsupportedOpcode w) ↔ s.fetchWord = .ok w ∧ supportedWord w = false

/-! ## The step (30_encoding R91, R100–R102; 60_exceptions R333) -/

/-- R91: out of bounds the step fails at the lowest failing address; else the word is (b0 << 8) | b1. -/
def Obligations.FetchRule : Prop :=
  ∀ s : State,
    (0xFFF < s.pc.toNat + 1 →
      step s = .fault (.memoryOutOfBounds (if 0xFFF < s.pc.toNat then s.pc.toNat else s.pc.toNat + 1))) ∧
    (s.pc.toNat + 1 ≤ 0xFFF →
      ∃ w : Word, s.fetchWord = .ok w ∧
        w.toNat = (s.mem.byteAt s.pc.toNat).toNat * 256 + (s.mem.byteAt (s.pc.toNat + 1)).toNat)

/-- A step runs the decoded instruction: where the two bytes at pc decode to i, the step is `exec i` at that state. If it
succeeds, the tick follows it, and the step's random input is used up (the model's fields `rndIn`, `drawIndex`, logs 5 and
6); if it fails, the failure is the step's answer (R100–R102, R333). -/
def Obligations.StepRunsDecoded : Prop :=
  ∀ (s : State) (i : Instr), s.pc.toNat ≤ 0xFFE →
    decode (wordOfBytes (s.mem.byteAt s.pc.toNat) (s.mem.byteAt (s.pc.toNat + 1))) = .ok i →
    (∀ t, exec i s = .next t → step s = .next
      { t with
        sound := t.sound || decide (t.st.toNat = 1)
        dt := BitVec.ofNat 8 (t.dt.toNat - 1)
        st := BitVec.ofNat 8 (t.st.toNat - 1)
        rndIn := none
        drawIndex := t.drawIndex + 1 }) ∧
    (∀ f, exec i s = .fault f → step s = .fault f)

/-- A step succeeds or answers one of the spec's failures, in every state and for every word: no instruction is refused
(60_exceptions R320). -/
def Obligations.StepSucceedsOrFails : Prop :=
  ∀ s : State, (∃ t, step s = .next t) ∨ ∃ f, step s = .fault f

/-- The timers count steps: a step that is not FX15 takes DT one down, one that is not FX18 takes ST one down, never below
0, and sets the sound flag exactly when ST was 1 (R333; 10_state R25, R28). -/
def Obligations.TimersCountSteps : Prop :=
  ∀ s t : State, step s = .next t →
    ∃ i, s.fetchInstr = .ok i ∧
      ((∀ x, i ≠ .ldDtVx x) → t.dt.toNat = s.dt.toNat - 1) ∧
      ((∀ x, i ≠ .ldStVx x) →
        t.st.toNat = s.st.toNat - 1 ∧ (t.sound = true ↔ s.sound = true ∨ s.st.toNat = 1))

/-! ## init, reset and the invariant (10_state R35; 70_reset_and_hazards) -/

/-- R360: init zeroes everything, sets pc to 0x200 and copies the glyph table to 0x050, whatever the state was. -/
def Obligations.InitEffect : Prop :=
  ∀ s : State, ∃ t, transact .init s = (t, .noResponse) ∧
    (∀ r, t.reg r = 0) ∧ t.i = 0 ∧ t.pc = 0x200 ∧ t.sp.val = 0 ∧ (∀ k : Fin 16, t.stack[k.val] = 0) ∧
    t.dt = 0 ∧ t.st = 0 ∧ (∀ x y, x < 64 → y < 32 → pixel t.fb x y = false) ∧
    (∀ k : Fin 16, t.keys[k.val] = false) ∧ t.redraw = false ∧ t.sound = false ∧ t.faultMark = false ∧
    (∀ k : Fin 80, t.mem.byteAt (0x050 + k.val) = s.cfg.glyphTable[k.val]) ∧
    (∀ a, a < 0x050 ∨ 0x0A0 ≤ a → t.mem.byteAt a = 0) ∧ t.cfg = s.cfg

/-- R362: reset gives every register, timer, pixel and key the value init gives, the redraw flag RESET_REDRAW, and leaves
memory untouched. -/
def Obligations.ResetEffect : Prop :=
  ∀ s : State, ∃ t, transact .reset s = (t, .noResponse) ∧
    (∀ r, t.reg r = 0) ∧ t.i = 0 ∧ t.pc = 0x200 ∧ t.sp.val = 0 ∧ (∀ k : Fin 16, t.stack[k.val] = 0) ∧
    t.dt = 0 ∧ t.st = 0 ∧ (∀ x y, x < 64 → y < 32 → pixel t.fb x y = false) ∧
    (∀ k : Fin 16, t.keys[k.val] = false) ∧ t.redraw = s.cfg.resetRedraw ∧ t.sound = false ∧
    t.faultMark = false ∧ KeepsMem s t ∧ t.cfg = s.cfg

/-- The invariant holds at `State.reset` (R35; that `State.reset` is the state after init is log 1). -/
def Obligations.ResetMeetsInvariant : Prop := State.reset.Inv

/-- Every step keeps the invariant: memory canonical, I below 2^I_BITS, pc at most 0x10FE, return addresses at most 0x1000
(10_state R22–R24; 20_memory R60). -/
def Obligations.StepKeepsInvariant : Prop := ∀ s t : State, s.Inv → step s = .next t → t.Inv

/-- Every host transaction keeps the invariant, a failed step and an oversized load among them (60_exceptions R338). -/
def Obligations.TransactionsKeepInvariant : Prop := ∀ (op : HostOp) (s : State), s.Inv → (transact op s).1.Inv

/-! ## What no instruction does -/

/-- No step writes the keypad latch, the configuration or the fault mark (10_state R29; 46_memory_index R276;
60_exceptions R327). -/
def Obligations.StepKeepsKeysAndConfig : Prop :=
  ∀ s t : State, step s = .next t → t.keys = s.keys ∧ t.cfg = s.cfg ∧ t.faultMark = s.faultMark

/-- No instruction clears a request flag; the redraw flag is raised by DXYN and 00E0 alone, and no instruction raises the
sound flag, which the tick does (10_state R27, R28). -/
def Obligations.RequestFlagsSticky : Prop :=
  ∀ (i : Instr) (s t : State), exec i s = .next t →
    (t.redraw = true ↔ s.redraw = true ∨ i = .cls ∨ ∃ x y n, i = .drw x y n) ∧ t.sound = s.sound

/-- Only 2NNN pushes and only 00EE pops (10_state R24). -/
def Obligations.OnlyCallAndRetMoveStack : Prop :=
  ∀ (i : Instr) (s t : State), exec i s = .next t →
    ((∀ nnn, i ≠ .call nnn) → t.stack = s.stack ∧ t.sp.val ≤ s.sp.val) ∧
    (i ≠ .ret → s.sp.val ≤ t.sp.val)

/-- Only FX33, FX55, 9XY3 and FX94 write memory (20_memory R66). -/
def Obligations.OnlyStoresWriteMemory : Prop :=
  ∀ (i : Instr) (s t : State), exec i s = .next t →
    (∀ x, i ≠ .ldB x ∧ i ≠ .ldMemVx x ∧ i ≠ .glyph3 x) → (∀ x y, i ≠ .bcd16 x y) → KeepsMem s t

/-- Only DXYN and 00E0 write the framebuffer (10_state R26). -/
def Obligations.OnlyDrawsWriteFramebuffer : Prop :=
  ∀ (i : Instr) (s t : State), exec i s = .next t → i ≠ .cls → (∀ x y n, i ≠ .drw x y n) → t.fb = s.fb

/-- I is written by ANNN, FX1E, FX29 and FX94, and by FX55 and FX65 in the compatibility mode only (10_state R22). -/
def Obligations.OnlyIndexWriters : Prop :=
  ∀ (i : Instr) (s t : State), exec i s = .next t →
    (∀ nnn, i ≠ .ldI nnn) → (∀ x, i ≠ .addI x ∧ i ≠ .ldF x ∧ i ≠ .glyph3 x) →
    (s.cfg.loadStoreIncrementsI = true → ∀ x, i ≠ .ldMemVx x ∧ i ≠ .ldVxMem x) → t.i = s.i

/-! ## Failures (60_exceptions R320, R327) -/

/-- A failure is decided by pc, memory and registers (and the configuration) alone: with any keys, random input, timers,
framebuffer, flags and stack contents the same failure comes (R327; of the stack only the depth counts, 10_state R30). -/
def Obligations.FailuresDecidedByRegistersAndMemory : Prop :=
  ∀ (s u : State) (f : Fault), u.v = s.v → u.i = s.i → u.pc = s.pc → u.sp = s.sp → u.mem = s.mem →
    u.cfg = s.cfg → step s = .fault f → step u = .fault f

/-- A failed step transaction changes nothing but the model's fault mark (decisions D3, D42; log 9). Its response is the
record of R320 for the step's failure: the failing pc, the fetched word or none, and the failure's code and information
(decision D4, the reason numbers of R338; a failing address in 16 bits, log 11). The next step fails the same way, whatever
its random input (R327). Every failure of the step is answered so. -/
def Obligations.FailedStepChangesNothing : Prop :=
  ∀ (s : State) (rnd rnd' : Byte),
    (∀ g, step { s with rndIn := some rnd } = .fault g → ∃ f, (transact (.step rnd) s).2 = .failed f) ∧
    ∀ f : Failure, (transact (.step rnd) s).2 = .failed f →
      (∃ g, step { s with rndIn := some rnd } = .fault g ∧ RecordShows f g) ∧
      (transact (.step rnd) s).1 = { s with faultMark := true } ∧
      f.pc = s.pc ∧
      (s.pc.toNat ≤ 0xFFE →
        f.word = some (wordOfBytes (s.mem.byteAt s.pc.toNat) (s.mem.byteAt (s.pc.toNat + 1)))) ∧
      (0xFFE < s.pc.toNat → f.word = none ∧ f.kind.toNat = 2) ∧
      1 ≤ f.kind.toNat ∧ f.kind.toNat ≤ 6 ∧
      (transact (.step rnd') { s with faultMark := true }).2 = .failed f

/-! ## Arithmetic and logic (41_arith_logic) -/

/-- R131: 6XNN sets VX to NN exactly. -/
def Obligations.LoadImmediate : Prop :=
  ∀ (x : RegIx) (nn : Byte) (s : State),
    (encode (.ldImm x nn)).toNat = 0x6000 + x.toNat * 256 + nn.toNat ∧
    ∃ t, exec (.ldImm x nn) s = .next t ∧ t.reg x = nn ∧ t.pc = s.pc + 2 ∧ OnlyRegs s t [x]

/-- R132: 7XNN sets VX to (VX + NN) mod 256, and VF is not written as a carry. -/
def Obligations.AddImmediate : Prop :=
  ∀ (x : RegIx) (nn : Byte) (s : State),
    (encode (.addImm x nn)).toNat = 0x7000 + x.toNat * 256 + nn.toNat ∧
    ∃ t, exec (.addImm x nn) s = .next t ∧ (t.reg x).toNat = ((s.reg x).toNat + nn.toNat) % 256 ∧
      t.pc = s.pc + 2 ∧ OnlyRegs s t [x]

/-- R133: 8XY0 copies VY to VX. -/
def Obligations.CopyRegister : Prop :=
  ∀ (x y : RegIx) (s : State),
    (encode (.ldReg x y)).toNat = 0x8000 + x.toNat * 256 + y.toNat * 16 ∧
    ∃ t, exec (.ldReg x y) s = .next t ∧ t.reg x = s.reg y ∧ t.pc = s.pc + 2 ∧ OnlyRegs s t [x]

/-- R134–R136: OR, AND and XOR, bit by bit, with VF not written but as the destination. -/
def Obligations.BitwiseOperations : Prop :=
  ∀ (x y : RegIx) (s : State),
    (encode (.orReg x y)).toNat = 0x8001 + x.toNat * 256 + y.toNat * 16 ∧
    (encode (.andReg x y)).toNat = 0x8002 + x.toNat * 256 + y.toNat * 16 ∧
    (encode (.xorReg x y)).toNat = 0x8003 + x.toNat * 256 + y.toNat * 16 ∧
    (∃ t, exec (.orReg x y) s = .next t ∧
      (∀ k, (t.reg x).getLsbD k = ((s.reg x).getLsbD k || (s.reg y).getLsbD k)) ∧
      t.pc = s.pc + 2 ∧ OnlyRegs s t [x]) ∧
    (∃ t, exec (.andReg x y) s = .next t ∧
      (∀ k, (t.reg x).getLsbD k = ((s.reg x).getLsbD k && (s.reg y).getLsbD k)) ∧
      t.pc = s.pc + 2 ∧ OnlyRegs s t [x]) ∧
    (∃ t, exec (.xorReg x y) s = .next t ∧
      (∀ k, (t.reg x).getLsbD k = ((s.reg x).getLsbD k ^^ (s.reg y).getLsbD k)) ∧
      t.pc = s.pc + 2 ∧ OnlyRegs s t [x])

/-- R137: the sum mod 256 to VX and the carry to VF, the flag last, so that X = 15 keeps the flag (decision D8). -/
def Obligations.AddRegisters : Prop :=
  ∀ (x y : RegIx) (s : State),
    (encode (.addReg x y)).toNat = 0x8004 + x.toNat * 256 + y.toNat * 16 ∧
    ∃ t, exec (.addReg x y) s = .next t ∧
      (x ≠ vf → (t.reg x).toNat = ((s.reg x).toNat + (s.reg y).toNat) % 256) ∧
      (t.reg vf).toNat = (if (s.reg x).toNat + (s.reg y).toNat > 255 then 1 else 0) ∧
      t.pc = s.pc + 2 ∧ OnlyRegs s t [x, vf]

/-- R138, R140: VX - VY and VY - VX mod 256; VF is the strict comparison, 0 when the operands are equal. -/
def Obligations.SubtractRegisters : Prop :=
  ∀ (x y : RegIx) (s : State),
    (encode (.sub x y)).toNat = 0x8005 + x.toNat * 256 + y.toNat * 16 ∧
    (encode (.subn x y)).toNat = 0x8007 + x.toNat * 256 + y.toNat * 16 ∧
    (∃ t, exec (.sub x y) s = .next t ∧
      (x ≠ vf → (t.reg x).toNat = ((s.reg x).toNat + 256 - (s.reg y).toNat) % 256) ∧
      (t.reg vf).toNat = (if (s.reg x).toNat > (s.reg y).toNat then 1 else 0) ∧
      t.pc = s.pc + 2 ∧ OnlyRegs s t [x, vf]) ∧
    (∃ t, exec (.subn x y) s = .next t ∧
      (x ≠ vf → (t.reg x).toNat = ((s.reg y).toNat + 256 - (s.reg x).toNat) % 256) ∧
      (t.reg vf).toNat = (if (s.reg y).toNat > (s.reg x).toNat then 1 else 0) ∧
      t.pc = s.pc + 2 ∧ OnlyRegs s t [x, vf])

/-- R139: VX shifted right by one, VF its old bit 0; any Y gives the same instruction. -/
def Obligations.ShiftRight : Prop :=
  ∀ (x y : RegIx) (s : State),
    (encode (.shr x y)).toNat = 0x8006 + x.toNat * 256 + y.toNat * 16 ∧
    (∀ y', exec (.shr x y') s = exec (.shr x y) s) ∧
    ∃ t, exec (.shr x y) s = .next t ∧ (x ≠ vf → (t.reg x).toNat = (s.reg x).toNat / 2) ∧
      (t.reg vf).toNat = (s.reg x).toNat % 2 ∧ t.pc = s.pc + 2 ∧ OnlyRegs s t [x, vf]

/-- R141: VX shifted left by one, VF its old bit 7, masked in place or, in the compatibility mode, as 0 or 1; any Y gives
the same instruction. -/
def Obligations.ShiftLeft : Prop :=
  ∀ (x y : RegIx) (s : State),
    (encode (.shl x y)).toNat = 0x800E + x.toNat * 256 + y.toNat * 16 ∧
    (∀ y', exec (.shl x y') s = exec (.shl x y) s) ∧
    ∃ t, exec (.shl x y) s = .next t ∧ (x ≠ vf → (t.reg x).toNat = (s.reg x).toNat * 2 % 256) ∧
      (t.reg vf).toNat =
        (if s.cfg.shlFlagNormalised = true then (s.reg x).toNat / 128 else (s.reg x).toNat / 128 * 128) ∧
      t.pc = s.pc + 2 ∧ OnlyRegs s t [x, vf]

/-- R142: CXNN writes the random byte masked by NN: the step's input where the host presents one, and in every case a value
with no bit outside NN. Nothing is said of the free value itself (log 5). -/
def Obligations.RandomByte : Prop :=
  ∀ (x : RegIx) (nn : Byte) (s : State),
    (encode (.rnd x nn)).toNat = 0xC000 + x.toNat * 256 + nn.toNat ∧
    ∃ t, exec (.rnd x nn) s = .next t ∧ (∀ r, s.rndIn = some r → t.reg x = r &&& nn) ∧
      (∀ k, nn.getLsbD k = false → (t.reg x).getLsbD k = false) ∧ t.pc = s.pc + 2 ∧ OnlyRegs s t [x]

/-! ## Skips (41_arith_logic R143–R147; 43_extended R201–R203) -/

/-- R144, R145: 3XNN skips on equal, 4XNN on not equal, pc + 4 or pc + 2, and nothing else changes. -/
def Obligations.ImmediateSkips : Prop :=
  ∀ (x : RegIx) (nn : Byte) (s : State),
    (encode (.seImm x nn)).toNat = 0x3000 + x.toNat * 256 + nn.toNat ∧
    (encode (.sneImm x nn)).toNat = 0x4000 + x.toNat * 256 + nn.toNat ∧
    (∃ t, exec (.seImm x nn) s = .next t ∧ t.pc = (if s.reg x = nn then s.pc + 4 else s.pc + 2) ∧ OnlyPc s t) ∧
    (∃ t, exec (.sneImm x nn) s = .next t ∧ t.pc = (if s.reg x = nn then s.pc + 2 else s.pc + 4) ∧ OnlyPc s t)

/-- R146, R147: 5XY0 skips on equal, 9XY0 on not equal. -/
def Obligations.RegisterSkips : Prop :=
  ∀ (x y : RegIx) (s : State),
    (encode (.seReg x y)).toNat = 0x5000 + x.toNat * 256 + y.toNat * 16 ∧
    (encode (.sneReg x y)).toNat = 0x9000 + x.toNat * 256 + y.toNat * 16 ∧
    (∃ t, exec (.seReg x y) s = .next t ∧ t.pc = (if s.reg x = s.reg y then s.pc + 4 else s.pc + 2) ∧ OnlyPc s t) ∧
    (∃ t, exec (.sneReg x y) s = .next t ∧ t.pc = (if s.reg x = s.reg y then s.pc + 2 else s.pc + 4) ∧ OnlyPc s t)

/-- R201–R203: for every relation supplied as REL_SKIP_COND (its pairs, log 3), 5XY1, 5XY2 and 5XY3 skip exactly where it
holds at (VX, VY); with none supplied they fail with Unmodelled(REL_SKIP_n). -/
def Obligations.RelationalSkips : Prop :=
  ∀ (x y : RegIx) (s : State),
    (encode (.skr1 x y)).toNat = 0x5001 + x.toNat * 256 + y.toNat * 16 ∧
    (encode (.skr2 x y)).toNat = 0x5002 + x.toNat * 256 + y.toNat * 16 ∧
    (encode (.skr3 x y)).toNat = 0x5003 + x.toNat * 256 + y.toNat * 16 ∧
    (∀ c, s.cfg.relSkipCond = some c →
      (∃ t, exec (.skr1 x y) s = .next t ∧
        t.pc = (if (s.reg x, s.reg y) ∈ c.rel1 then s.pc + 4 else s.pc + 2) ∧ OnlyPc s t) ∧
      (∃ t, exec (.skr2 x y) s = .next t ∧
        t.pc = (if (s.reg x, s.reg y) ∈ c.rel2 then s.pc + 4 else s.pc + 2) ∧ OnlyPc s t) ∧
      (∃ t, exec (.skr3 x y) s = .next t ∧
        t.pc = (if (s.reg x, s.reg y) ∈ c.rel3 then s.pc + 4 else s.pc + 2) ∧ OnlyPc s t)) ∧
    (s.cfg.relSkipCond = none →
      exec (.skr1 x y) s = .fault (.unmodelled .relSkip1) ∧
      exec (.skr2 x y) s = .fault (.unmodelled .relSkip2) ∧
      exec (.skr3 x y) s = .fault (.unmodelled .relSkip3))

/-! ## Control transfer (42_control_flow) -/

/-- R182, R184: 1NNN sets pc to NNN; BNNN to NNN + V0, with no wrap and no mask. -/
def Obligations.Jumps : Prop :=
  ∀ (nnn : BitVec 12) (s : State),
    (encode (.jp nnn)).toNat = 0x1000 + nnn.toNat ∧
    (encode (.jpV0 nnn)).toNat = 0xB000 + nnn.toNat ∧
    (∃ t, exec (.jp nnn) s = .next t ∧ t.pc.toNat = nnn.toNat ∧ OnlyPc s t) ∧
    (∃ t, exec (.jpV0 nnn) s = .next t ∧ t.pc.toNat = nnn.toNat + (s.reg 0).toNat ∧ OnlyPc s t)

/-- R183: below depth 16, 2NNN pushes pc + 2 and jumps to NNN; at 16 it fails with StackOverflow. -/
def Obligations.CallPushes : Prop :=
  ∀ (nnn : BitVec 12) (s : State),
    (encode (.call nnn)).toNat = 0x2000 + nnn.toNat ∧
    (∀ k : Fin 16, s.sp.val = k.val →
      ∃ t, exec (.call nnn) s = .next t ∧ t.pc.toNat = nnn.toNat ∧ t.sp.val = k.val + 1 ∧
        t.stack[k.val] = s.pc + 2 ∧ (∀ j : Fin 16, j ≠ k → t.stack[j.val] = s.stack[j.val]) ∧
        t = { s with pc := t.pc, sp := t.sp, stack := t.stack } ∧ KeepsRegs s t [] ∧ KeepsMem s t) ∧
    (s.sp.val = 16 → exec (.call nnn) s = .fault .stackOverflow)

/-- R181: 00EE takes the newest entry to pc as it stands (decision D7); with the stack empty it fails with StackUnderflow
(decision D47, 90_conflicts C5). -/
def Obligations.ReturnPops : Prop :=
  encode .ret = 0x00EE#16 ∧ ∀ s : State,
    (∀ k : Fin 16, s.sp.val = k.val + 1 →
      ∃ t, exec .ret s = .next t ∧ t.pc = s.stack[k.val] ∧ t.sp.val = k.val ∧
        t = { s with pc := t.pc, sp := t.sp } ∧ KeepsRegs s t [] ∧ KeepsMem s t) ∧
    (s.sp.val = 0 → exec .ret s = .fault .stackUnderflow)

/-- A call and the return from it: pc is the instruction after the call, the depth and the entries below it are as before,
whatever the callee did to anything but the stack (42_control_flow R181, R183). -/
def Obligations.ReturnUndoesCall : Prop :=
  ∀ (nnn : BitVec 12) (s : State), s.sp.val < 16 →
    ∃ t, exec (.call nnn) s = .next t ∧
      ∀ c : State, c.stack = t.stack → c.sp = t.sp →
        ∃ u, exec .ret c = .next u ∧ u.pc = s.pc + 2 ∧ u.sp = s.sp ∧
          ∀ k : Fin 16, k.val < s.sp.val → u.stack[k.val] = s.stack[k.val]

/-! ## Extended instructions (43_extended R204–R207) -/

/-- R204: the exact product's bytes, VF written last, placed as MUL_HIGH_TO says. -/
def Obligations.Multiply : Prop :=
  ∀ (x y : RegIx) (s : State),
    (encode (.mul x y)).toNat = 0x9001 + x.toNat * 256 + y.toNat * 16 ∧
    ∃ t, exec (.mul x y) s = .next t ∧
      (s.cfg.mulHighTo = .vf →
        (x ≠ vf → (t.reg x).toNat = (s.reg x).toNat * (s.reg y).toNat % 256) ∧
        (t.reg vf).toNat = (s.reg x).toNat * (s.reg y).toNat / 256) ∧
      (s.cfg.mulHighTo = .vx →
        (x ≠ vf → (t.reg x).toNat = (s.reg x).toNat * (s.reg y).toNat / 256) ∧
        (t.reg vf).toNat = (s.reg x).toNat * (s.reg y).toNat % 256) ∧
      t.pc = s.pc + 2 ∧ OnlyRegs s t [x, vf]

/-- R205: quotient to VX, remainder to VF last; a zero divisor fails with DivideByZero. -/
def Obligations.Divide : Prop :=
  ∀ (x y : RegIx) (s : State),
    (encode (.div x y)).toNat = 0x9002 + x.toNat * 256 + y.toNat * 16 ∧
    ((s.reg y).toNat ≠ 0 →
      ∃ t, exec (.div x y) s = .next t ∧ (x ≠ vf → (t.reg x).toNat = (s.reg x).toNat / (s.reg y).toNat) ∧
        (t.reg vf).toNat = (s.reg x).toNat % (s.reg y).toNat ∧ t.pc = s.pc + 2 ∧ OnlyRegs s t [x, vf]) ∧
    ((s.reg y).toNat = 0 → exec (.div x y) s = .fault .divideByZero)

/-- R206: the register pair's value, of the order BCD16_PAIR gives, as five decimal digits, most significant first, at
I..I+4, checked before any is written. -/
def Obligations.Bcd16Stores : Prop :=
  ∀ (x y : RegIx) (s : State),
    (encode (.bcd16 x y)).toNat = 0x9003 + x.toNat * 256 + y.toNat * 16 ∧
    (s.i.toNat + 4 ≤ 0xFFF →
      ∃ t, exec (.bcd16 x y) s = .next t ∧
        (s.mem.wf = true → ∃ d0 d1 d2 d3 d4 : Nat, d0 ≤ 9 ∧ d1 ≤ 9 ∧ d2 ≤ 9 ∧ d3 ≤ 9 ∧ d4 ≤ 9 ∧
          (s.cfg.bcd16Pair = .vxHi →
            (s.reg x).toNat * 256 + (s.reg y).toNat = 10000 * d0 + 1000 * d1 + 100 * d2 + 10 * d3 + d4) ∧
          (s.cfg.bcd16Pair = .vyHi →
            (s.reg y).toNat * 256 + (s.reg x).toNat = 10000 * d0 + 1000 * d1 + 100 * d2 + 10 * d3 + d4) ∧
          (t.mem.byteAt s.i.toNat).toNat = d0 ∧ (t.mem.byteAt (s.i.toNat + 1)).toNat = d1 ∧
          (t.mem.byteAt (s.i.toNat + 2)).toNat = d2 ∧ (t.mem.byteAt (s.i.toNat + 3)).toNat = d3 ∧
          (t.mem.byteAt (s.i.toNat + 4)).toNat = d4) ∧
        t.pc = s.pc + 2 ∧ OnlyMem s t s.i.toNat 5) ∧
    (0xFFF < s.i.toNat + 4 → exec (.bcd16 x y) s = .fault (.memoryOutOfBounds (max s.i.toNat 0x1000)))

/-- R207: for every effect supplied as FX94_SEM (log 4) inside memory, FX94 makes its writes, the last of several to one
place standing, changes nothing but V, I, memory and pc, and advances pc by 2; an effect that goes outside memory fails at
its first such address (log 16), and with none supplied FX94 fails with Unmodelled(FX94). -/
def Obligations.GlyphLookup : Prop :=
  ∀ (x : RegIx) (s : State),
    (encode (.glyph3 x)).toNat = 0xF094 + x.toNat * 256 ∧
    (∀ e, fx94Effect s.cfg.fx94Sem (s.fx94Query x) = some e →
      ((∀ a ∈ e.reads, a ≤ 0xFFF) ∧ (∀ c ∈ e.memWrites, c.1 ≤ 0xFFF) →
        ∃ t, exec (.glyph3 x) s = .next t ∧ t.pc = s.pc + 2 ∧
          t = { s with v := t.v, i := t.i, mem := t.mem, pc := t.pc } ∧
          (∀ r, (∀ w ∈ e.vWrites, w.1 ≠ r) → t.reg r = s.reg r) ∧
          (∀ pre r b post, e.vWrites = pre ++ (r, b) :: post → (∀ w ∈ post, w.1 ≠ r) → t.reg r = b) ∧
          (e.iWrite = none → t.i = s.i) ∧
          (∀ n, e.iWrite = some n → t.i.toNat = n % 2 ^ s.cfg.iBits.width) ∧
          (∀ a, (∀ c ∈ e.memWrites, c.1 ≠ a) → t.mem.byteAt a = s.mem.byteAt a) ∧
          (s.mem.wf = true → ∀ pre a b post, e.memWrites = pre ++ (a, b) :: post →
            (∀ c ∈ post, c.1 ≠ a) → t.mem.byteAt a = b)) ∧
      (∀ pre a post, e.reads ++ e.memWrites.map (·.1) = pre ++ a :: post → (∀ b ∈ pre, b ≤ 0xFFF) →
        0xFFF < a → exec (.glyph3 x) s = .fault (.memoryOutOfBounds a))) ∧
    (fx94Effect s.cfg.fx94Sem (s.fx94Query x) = none →
      exec (.glyph3 x) s = .fault (.unmodelled .fx94))

/-! ## Display (44_display) -/

/-- R231: every pixel becomes its old value XOR the sprite's bit there, wrapped at 64 and 32; VF is 1 exactly when a set bit
fell on a set pixel; the redraw flag is raised. The origin is read before VF is cleared, or after it where
DRAW_ORIGIN_SNAPSHOT is off. A sprite that goes outside memory fails at the lowest such address; one of no rows cannot. -/
def Obligations.DrawSprite : Prop :=
  ∀ (x y : RegIx) (n : BitVec 4) (s : State),
    (encode (.drw x y n)).toNat = 0xD000 + x.toNat * 256 + y.toNat * 16 + n.toNat ∧
    (∀ (x0 y0 : Nat) (rows : List Byte),
      x0 = (if s.cfg.drawOriginSnapshot = false ∧ x = vf then 0 else (s.reg x).toNat) →
      y0 = (if s.cfg.drawOriginSnapshot = false ∧ y = vf then 0 else (s.reg y).toNat) →
      rows.length = n.toNat → (∀ k, k < n.toNat → rows.getD k 0 = s.mem.byteAt (s.i.toNat + k)) →
      (n.toNat = 0 ∨ s.i.toNat + n.toNat ≤ 0x1000) →
      ∃ t, exec (.drw x y n) s = .next t ∧
        (∀ px py, px < 64 → py < 32 → pixel t.fb px py = (pixel s.fb px py ^^ spriteBit x0 y0 rows px py)) ∧
        (t.reg vf = 1 ∨ t.reg vf = 0) ∧
        (t.reg vf = 1 ↔
          ∃ px py, px < 64 ∧ py < 32 ∧ spriteBit x0 y0 rows px py = true ∧ pixel s.fb px py = true) ∧
        t.redraw = true ∧ t.pc = s.pc + 2 ∧
        t = { s with v := t.v, fb := t.fb, redraw := t.redraw, pc := t.pc } ∧ KeepsRegs s t [vf] ∧ KeepsMem s t) ∧
    (0 < n.toNat → 0xFFF < s.i.toNat + n.toNat - 1 →
      exec (.drw x y n) s = .fault (.memoryOutOfBounds (max s.i.toNat 0x1000)))

/-- Drawing the same sprite twice at the same coordinates restores every pixel, and on a clear screen the second draw of a
non-zero sprite sets VF to 1 (44_display R231, its example from §8). -/
def Obligations.DrawTwiceRestores : Prop :=
  ∀ (x y : RegIx) (n : BitVec 4) (s : State), x ≠ vf → y ≠ vf →
    (n.toNat = 0 ∨ s.i.toNat + n.toNat ≤ 0x1000) →
    ∃ t u, exec (.drw x y n) s = .next t ∧ exec (.drw x y n) t = .next u ∧ u.fb = s.fb ∧
      (s.fb = 0 → (∃ k, k < n.toNat ∧ s.mem.byteAt (s.i.toNat + k) ≠ 0) → u.reg vf = 1)

/-- R232: 00E0 clears every pixel and raises the redraw flag; VF is not written. -/
def Obligations.ClearScreen : Prop :=
  encode .cls = 0x00E0#16 ∧ ∀ s : State,
    ∃ t, exec .cls s = .next t ∧ (∀ px py, px < 64 → py < 32 → pixel t.fb px py = false) ∧ t.redraw = true ∧
      t.pc = s.pc + 2 ∧ t = { s with fb := t.fb, redraw := t.redraw, pc := t.pc } ∧ KeepsRegs s t [] ∧ KeepsMem s t

/-! ## Keypad (45_keypad) -/

/-- R250–R252: EX9E skips if the key numbered by VX is pressed, EXA1 if not; for VX ≥ 16 the key is VX's low nibble under
the low_nibble policy, and both fail with Unmodelled(KEY_INDEX) under the fault policy. -/
def Obligations.KeySkips : Prop :=
  ∀ (x : RegIx) (s : State),
    (encode (.skp x)).toNat = 0xE09E + x.toNat * 256 ∧
    (encode (.sknp x)).toNat = 0xE0A1 + x.toNat * 256 ∧
    (∀ k : Fin 16,
      (k.val = (s.reg x).toNat ∨
        16 ≤ (s.reg x).toNat ∧ s.cfg.keyIndexPolicy = .lowNibble ∧ k.val = (s.reg x).toNat % 16) →
      (∃ t, exec (.skp x) s = .next t ∧
        t.pc = (if s.keys[k.val] = true then s.pc + 4 else s.pc + 2) ∧ OnlyPc s t) ∧
      (∃ t, exec (.sknp x) s = .next t ∧
        t.pc = (if s.keys[k.val] = true then s.pc + 2 else s.pc + 4) ∧ OnlyPc s t)) ∧
    (16 ≤ (s.reg x).toNat → s.cfg.keyIndexPolicy = .fault →
      exec (.skp x) s = .fault (.unmodelled .keyIndex) ∧ exec (.sknp x) s = .fault (.unmodelled .keyIndex))

/-- R253: with a key pressed, FX0A writes the lowest such key to VX and advances; with none it changes nothing at all. In
neither case is the latch written (decision D48, 90_conflicts C3). -/
def Obligations.AwaitKey : Prop :=
  ∀ (x : RegIx) (s : State),
    (encode (.ldVxK x)).toNat = 0xF00A + x.toNat * 256 ∧
    (∀ k : Fin 16, s.keys[k.val] = true → (∀ j : Fin 16, j < k → s.keys[j.val] = false) →
      ∃ t, exec (.ldVxK x) s = .next t ∧ (t.reg x).toNat = k.val ∧ t.pc = s.pc + 2 ∧ OnlyRegs s t [x]) ∧
    ((∀ k : Fin 16, s.keys[k.val] = false) → exec (.ldVxK x) s = .next s)

/-! ## Index register, BCD, register block (46_memory_index) -/

/-- R270: ANNN sets I to NNN. -/
def Obligations.SetIndex : Prop :=
  ∀ (nnn : BitVec 12) (s : State),
    (encode (.ldI nnn)).toNat = 0xA000 + nnn.toNat ∧
    ∃ t, exec (.ldI nnn) s = .next t ∧ t.i.toNat = nnn.toNat ∧ t.pc = s.pc + 2 ∧ OnlyIndex s t

/-- R271: FX1E adds VX to I mod 2^I_BITS (2^16 by default); VF is not written. -/
def Obligations.AddToIndex : Prop :=
  ∀ (x : RegIx) (s : State),
    (encode (.addI x)).toNat = 0xF01E + x.toNat * 256 ∧
    ∃ t, exec (.addI x) s = .next t ∧ t.i.toNat = (s.i.toNat + (s.reg x).toNat) % 2 ^ s.cfg.iBits.width ∧
      t.pc = s.pc + 2 ∧ OnlyIndex s t

/-- R272: FX29 sets I to 0x050 + 5·a, a being VX, its low nibble or VX unmasked as GLYPH_INDEX_POLICY says for VX ≥ 16;
under the fault policy it fails with Unmodelled(GLYPH_INDEX) there. -/
def Obligations.GlyphAddress : Prop :=
  ∀ (x : RegIx) (s : State),
    (encode (.ldF x)).toNat = 0xF029 + x.toNat * 256 ∧
    (∀ a : Nat,
      ((s.reg x).toNat < 16 ∧ a = (s.reg x).toNat ∨
        16 ≤ (s.reg x).toNat ∧ s.cfg.glyphIndexPolicy = .lowNibble ∧ a = (s.reg x).toNat % 16 ∨
        16 ≤ (s.reg x).toNat ∧ s.cfg.glyphIndexPolicy = .unmasked ∧ a = (s.reg x).toNat) →
      ∃ t, exec (.ldF x) s = .next t ∧ t.i.toNat = 0x050 + 5 * a ∧ t.pc = s.pc + 2 ∧ OnlyIndex s t) ∧
    (16 ≤ (s.reg x).toNat → s.cfg.glyphIndexPolicy = .fault →
      exec (.ldF x) s = .fault (.unmodelled .glyphIndex))

/-- R273: FX33 stores VX's three decimal digits, most significant first, at I..I+2, checked before any is written. -/
def Obligations.BcdStores : Prop :=
  ∀ (x : RegIx) (s : State),
    (encode (.ldB x)).toNat = 0xF033 + x.toNat * 256 ∧
    (s.i.toNat + 2 ≤ 0xFFF →
      ∃ t, exec (.ldB x) s = .next t ∧
        (s.mem.wf = true → ∃ d0 d1 d2 : Nat, d0 ≤ 9 ∧ d1 ≤ 9 ∧ d2 ≤ 9 ∧
          (s.reg x).toNat = 100 * d0 + 10 * d1 + d2 ∧ (t.mem.byteAt s.i.toNat).toNat = d0 ∧
          (t.mem.byteAt (s.i.toNat + 1)).toNat = d1 ∧ (t.mem.byteAt (s.i.toNat + 2)).toNat = d2) ∧
        t.pc = s.pc + 2 ∧ OnlyMem s t s.i.toNat 3) ∧
    (0xFFF < s.i.toNat + 2 → exec (.ldB x) s = .fault (.memoryOutOfBounds (max s.i.toNat 0x1000)))

/-- R274: FX55 stores V0..VX at I..I+X, checked first; I is unchanged but in the compatibility mode of R276. -/
def Obligations.BlockStores : Prop :=
  ∀ (x : RegIx) (s : State),
    (encode (.ldMemVx x)).toNat = 0xF055 + x.toNat * 256 ∧
    (s.i.toNat + x.toNat ≤ 0xFFF →
      ∃ t, exec (.ldMemVx x) s = .next t ∧
        (s.mem.wf = true → ∀ r : RegIx, r.toNat ≤ x.toNat → t.mem.byteAt (s.i.toNat + r.toNat) = s.reg r) ∧
        (s.cfg.loadStoreIncrementsI = false → t.i = s.i) ∧
        (s.cfg.loadStoreIncrementsI = true → t.i.toNat = (s.i.toNat + x.toNat + 1) % 2 ^ s.cfg.iBits.width) ∧
        t.pc = s.pc + 2 ∧ t = { s with mem := t.mem, i := t.i, pc := t.pc } ∧ KeepsRegs s t [] ∧
        KeepsMemOutside s t s.i.toNat (x.toNat + 1)) ∧
    (0xFFF < s.i.toNat + x.toNat → exec (.ldMemVx x) s = .fault (.memoryOutOfBounds (max s.i.toNat 0x1000)))

/-- R275: FX65 loads V0..VX from I..I+X, checked first; V(X+1)..VF are unchanged, and I too but in the compatibility mode. -/
def Obligations.BlockLoads : Prop :=
  ∀ (x : RegIx) (s : State),
    (encode (.ldVxMem x)).toNat = 0xF065 + x.toNat * 256 ∧
    (s.i.toNat + x.toNat ≤ 0xFFF →
      ∃ t, exec (.ldVxMem x) s = .next t ∧
        (∀ r : RegIx, r.toNat ≤ x.toNat → t.reg r = s.mem.byteAt (s.i.toNat + r.toNat)) ∧
        (∀ r : RegIx, x.toNat < r.toNat → t.reg r = s.reg r) ∧
        (s.cfg.loadStoreIncrementsI = false → t.i = s.i) ∧
        (s.cfg.loadStoreIncrementsI = true → t.i.toNat = (s.i.toNat + x.toNat + 1) % 2 ^ s.cfg.iBits.width) ∧
        t.pc = s.pc + 2 ∧ t = { s with v := t.v, i := t.i, pc := t.pc } ∧ KeepsMem s t) ∧
    (0xFFF < s.i.toNat + x.toNat → exec (.ldVxMem x) s = .fault (.memoryOutOfBounds (max s.i.toNat 0x1000)))

/-- What FX55 stores, FX65 with the same X and I loads back, whatever the registers hold in between (46_memory_index R274,
R275). -/
def Obligations.StoreThenLoadRestores : Prop :=
  ∀ (x : RegIx) (s : State) (v : Vector Byte 16), s.mem.wf = true → s.i.toNat + x.toNat ≤ 0xFFF →
    ∃ t, exec (.ldMemVx x) s = .next t ∧
      ∃ u, exec (.ldVxMem x) { t with v := v, i := s.i } = .next u ∧
        ∀ r : RegIx, r.toNat ≤ x.toNat → u.reg r = s.reg r

/-! ## Timers (47_timers; 60_exceptions R333) -/

/-- R300–R302: FX07 reads DT, FX15 writes it and FX18 writes ST, before the step's tick, and nothing else changes. -/
def Obligations.TimerMoves : Prop :=
  ∀ (x : RegIx) (s : State),
    (encode (.ldVxDt x)).toNat = 0xF007 + x.toNat * 256 ∧
    (encode (.ldDtVx x)).toNat = 0xF015 + x.toNat * 256 ∧
    (encode (.ldStVx x)).toNat = 0xF018 + x.toNat * 256 ∧
    (∃ t, exec (.ldVxDt x) s = .next t ∧ t.reg x = s.dt ∧ t.pc = s.pc + 2 ∧ OnlyRegs s t [x]) ∧
    (∃ t, exec (.ldDtVx x) s = .next t ∧ t.dt = s.reg x ∧ t.pc = s.pc + 2 ∧
      t = { s with dt := t.dt, pc := t.pc } ∧ KeepsRegs s t [] ∧ KeepsMem s t) ∧
    (∃ t, exec (.ldStVx x) s = .next t ∧ t.st = s.reg x ∧ t.pc = s.pc + 2 ∧
      t = { s with st := t.st, pc := t.pc } ∧ KeepsRegs s t [] ∧ KeepsMem s t)

/-- After FX15 sets DT to n in one step, FX07 in the very next step reads n - 1, or 0 for n = 0 (47_timers R300;
70_reset_and_hazards R366). -/
def Obligations.DelayReadsOneLower : Prop :=
  ∀ (s t : State) (x y : RegIx), s.fetchInstr = .ok (.ldDtVx x) → step s = .next t →
    t.fetchInstr = .ok (.ldVxDt y) →
    ∃ u, step t = .next u ∧ (u.reg y).toNat = (s.reg x).toNat - 1

/-- FX18's step: with VX = 1 the sound flag is raised in this very step and ST ends at 0; with any other value the flag is
as before and ST ends one lower, or at 0 (47_timers R302; 60_exceptions R333). -/
def Obligations.SoundRaisedAtOne : Prop :=
  ∀ (s : State) (x : RegIx), s.fetchInstr = .ok (.ldStVx x) →
    ∃ t, step s = .next t ∧ t.st.toNat = (s.reg x).toNat - 1 ∧
      ((s.reg x).toNat = 1 → t.sound = true) ∧ ((s.reg x).toNat ≠ 1 → t.sound = s.sound)

/-! ## The host (60_exceptions R334–R338, R342; 70_reset_and_hazards R363) -/

/-- R363: a load of at most 3584 bytes writes exactly them from 0x200 and changes nothing else; a longer one answers
LoadTooLarge and changes nothing. -/
def Obligations.ProgramLoad : Prop :=
  ∀ (bytes : List Byte) (s : State),
    (bytes.length ≤ 3584 →
      ∃ t, transact (.load bytes) s = (t, .ok) ∧ t = { s with mem := t.mem } ∧
        (s.mem.wf = true → ∀ k (h : k < bytes.length), t.mem.byteAt (0x200 + k) = bytes[k]) ∧
        KeepsMemOutside s t 0x200 bytes.length) ∧
    (3584 < bytes.length → transact (.load bytes) s = (s, .loadTooLarge))

/-- R334–R338: writing the keys replaces the whole latch, a read changes nothing and shows pixel (x, y) at bit y·64 + x and
both flags, each acknowledge clears its own flag alone, and a successful step transaction is the step with its random byte
presented, answered by Ok (R100, R338; the model's forms, logs 6 and 18). -/
def Obligations.HostPorts : Prop :=
  ∀ (s : State) (keys : Vector Bool 16),
    transact (.writeKeys keys) s = ({ s with keys := keys }, .noResponse) ∧
    (∃ bits, transact .readFb s = (s, .pixels bits) ∧
      ∀ x y, x < 64 → y < 32 → bits.getLsbD (y * 64 + x) = pixel s.fb x y) ∧
    transact .readFlags s = (s, .flags s.redraw s.sound) ∧
    transact .ackRedraw s = ({ s with redraw := false }, .noResponse) ∧
    transact .ackSound s = ({ s with sound := false }, .noResponse) ∧
    (∀ rnd t, step { s with rndIn := some rnd } = .next t → transact (.step rnd) s = (t, .ok))

/-- At the end of a run a step still succeeds and stays there: only the timers, the sound flag and the model's step inputs
move (60_exceptions R342). -/
def Obligations.EndOfRunStays : Prop :=
  ∀ s : State, s.EndOfRun →
    ∃ t, step s = .next t ∧ t.EndOfRun ∧
      t = { s with dt := t.dt, st := t.st, sound := t.sound, rndIn := t.rndIn, drawIndex := t.drawIndex }
end

