-- ==== Sys2Proof/Laws/Decode.lean ====
section
/-! SUPPORT. The fields of a word put together, and a word's value. -/

namespace Sys2Proof

theorem toNat_append' {v w : Nat} (a : BitVec v) (b : BitVec w) : (a ++ b).toNat = a.toNat * 2 ^ w + b.toNat := by
  rw [BitVec.toNat_append, ← Nat.shiftLeft_add_eq_or_of_lt b.isLt, Nat.shiftLeft_eq]

theorem toNat_wordA (op : BitVec 4) (nnn : BitVec 12) : (wordA op nnn).toNat = op.toNat * 4096 + nnn.toNat :=
  toNat_append' op nnn

theorem toNat_wordXB (op : BitVec 4) (x : RegIx) (nn : Byte) :
    (wordXB op x nn).toNat = op.toNat * 4096 + x.toNat * 256 + nn.toNat := by
  rw [wordXB, toNat_append', toNat_append']
  norm_num
  ring

theorem toNat_wordXY (op : BitVec 4) (x y : RegIx) (n : BitVec 4) :
    (wordXY op x y n).toNat = op.toNat * 4096 + x.toNat * 256 + y.toNat * 16 + n.toNat := by
  rw [wordXY, toNat_append', toNat_append', toNat_append']
  norm_num
  ring

/-! A field is the word's value, divided and reduced. -/

theorem toNat_fieldOp (w : Word) : (fieldOp w).toNat = w.toNat / 4096 := by
  have := w.isLt
  simp only [fieldOp, BitVec.extractLsb'_toNat, Nat.shiftRight_eq_div_pow]; omega

theorem toNat_fieldX (w : Word) : (fieldX w).toNat = w.toNat / 256 % 16 := by
  simp only [fieldX, BitVec.extractLsb'_toNat, Nat.shiftRight_eq_div_pow]

theorem toNat_fieldY (w : Word) : (fieldY w).toNat = w.toNat / 16 % 16 := by
  simp only [fieldY, BitVec.extractLsb'_toNat, Nat.shiftRight_eq_div_pow]

theorem toNat_fieldN (w : Word) : (fieldN w).toNat = w.toNat % 16 := by
  simp only [fieldN, BitVec.extractLsb'_toNat, Nat.shiftRight_eq_div_pow]; omega

theorem toNat_fieldNN (w : Word) : (fieldNN w).toNat = w.toNat % 256 := by
  simp only [fieldNN, BitVec.extractLsb'_toNat, Nat.shiftRight_eq_div_pow]; omega

theorem toNat_fieldNNN (w : Word) : (fieldNNN w).toNat = w.toNat % 4096 := by
  simp only [fieldNNN, BitVec.extractLsb'_toNat, Nat.shiftRight_eq_div_pow]; omega

/-! The fields of each format. -/

@[simp] theorem fieldOp_wordA (op : BitVec 4) (nnn : BitVec 12) : fieldOp (wordA op nnn) = op := by
  apply BitVec.eq_of_toNat_eq; rw [toNat_fieldOp, toNat_wordA]; omega

@[simp] theorem fieldNNN_wordA (op : BitVec 4) (nnn : BitVec 12) : fieldNNN (wordA op nnn) = nnn := by
  apply BitVec.eq_of_toNat_eq; rw [toNat_fieldNNN, toNat_wordA]; omega

@[simp] theorem fieldOp_wordXB (op : BitVec 4) (x : RegIx) (nn : Byte) : fieldOp (wordXB op x nn) = op := by
  apply BitVec.eq_of_toNat_eq; rw [toNat_fieldOp, toNat_wordXB]; omega

@[simp] theorem fieldX_wordXB (op : BitVec 4) (x : RegIx) (nn : Byte) : fieldX (wordXB op x nn) = x := by
  apply BitVec.eq_of_toNat_eq; rw [toNat_fieldX, toNat_wordXB]; omega

@[simp] theorem fieldNN_wordXB (op : BitVec 4) (x : RegIx) (nn : Byte) : fieldNN (wordXB op x nn) = nn := by
  apply BitVec.eq_of_toNat_eq; rw [toNat_fieldNN, toNat_wordXB]; omega

@[simp] theorem fieldOp_wordXY (op : BitVec 4) (x y : RegIx) (n : BitVec 4) : fieldOp (wordXY op x y n) = op := by
  apply BitVec.eq_of_toNat_eq; rw [toNat_fieldOp, toNat_wordXY]; omega

@[simp] theorem fieldX_wordXY (op : BitVec 4) (x y : RegIx) (n : BitVec 4) : fieldX (wordXY op x y n) = x := by
  apply BitVec.eq_of_toNat_eq; rw [toNat_fieldX, toNat_wordXY]; omega

@[simp] theorem fieldY_wordXY (op : BitVec 4) (x y : RegIx) (n : BitVec 4) : fieldY (wordXY op x y n) = y := by
  apply BitVec.eq_of_toNat_eq; rw [toNat_fieldY, toNat_wordXY]; omega

@[simp] theorem fieldN_wordXY (op : BitVec 4) (x y : RegIx) (n : BitVec 4) : fieldN (wordXY op x y n) = n := by
  apply BitVec.eq_of_toNat_eq; rw [toNat_fieldN, toNat_wordXY]; omega

/-! Splitting a word into the fields of each format, and joining its bytes. -/

theorem wordA_fields (w : Word) : wordA (fieldOp w) (fieldNNN w) = w := by
  apply BitVec.eq_of_toNat_eq; rw [toNat_wordA, toNat_fieldOp, toNat_fieldNNN]; omega

theorem wordXB_fields (w : Word) : wordXB (fieldOp w) (fieldX w) (fieldNN w) = w := by
  apply BitVec.eq_of_toNat_eq; rw [toNat_wordXB, toNat_fieldOp, toNat_fieldX, toNat_fieldNN]; omega

theorem wordXY_fields (w : Word) : wordXY (fieldOp w) (fieldX w) (fieldY w) (fieldN w) = w := by
  apply BitVec.eq_of_toNat_eq
  rw [toNat_wordXY, toNat_fieldOp, toNat_fieldX, toNat_fieldY, toNat_fieldN]; omega

theorem wordOfBytes_bytesOfWord (w : Word) : wordOfBytes (w.extractLsb' 8 8) (w.extractLsb' 0 8) = w := by
  apply BitVec.eq_of_toNat_eq
  have := w.isLt
  rw [wordOfBytes, toNat_append']
  simp only [BitVec.extractLsb'_toNat, Nat.shiftRight_eq_div_pow]
  omega

end Sys2Proof
end

