-- ==== Sys2Proof/Laws/Memory.lean ====
section
/-! SUPPORT. Memory: a read after a write, what a write leaves alone, and that every operation keeps the canonical form. -/

namespace Sys2Proof.Machine

theorem outOfBounds_eq_none {a n : Nat} : outOfBounds a n = none ↔ n = 0 ∨ a + n ≤ 4096 := by
  unfold outOfBounds Config.memSize
  split <;> simp_all

theorem outOfBounds_eq_some {a n e : Nat} :
    outOfBounds a n = some e ↔ (n ≠ 0 ∧ 4096 < a + n) ∧ e = max a 4096 := by
  unfold outOfBounds Config.memSize
  split <;> simp_all <;> omega

theorem Memory.wfFrom_mono {lo lo' : Nat} {m : Memory} (h : Memory.wfFrom lo m = true) (hl : lo' ≤ lo) :
    Memory.wfFrom lo' m = true := by
  cases m with
  | nil => rfl
  | cons c rest =>
    simp only [Memory.wfFrom, Bool.and_eq_true, decide_eq_true_eq] at h ⊢
    exact ⟨⟨⟨Nat.le_trans hl h.1.1.1, h.1.1.2⟩, h.1.2⟩, h.2⟩

/-- An address below every listed one reads as unlisted. -/
theorem Memory.byteAt_of_lt {m : Memory} {lo a : Nat} (h : Memory.wfFrom lo m = true) (ha : a < lo) :
    m.byteAt a = Memory.unlisted a := by
  induction m generalizing lo with
  | nil => rfl
  | cons c rest ih =>
    simp only [Memory.wfFrom, Bool.and_eq_true, decide_eq_true_eq] at h
    rw [Memory.byteAt, if_neg (by omega)]
    exact ih h.2 (by omega)

/-- Outside memory nothing is listed. -/
theorem Memory.byteAt_outside {m : Memory} {lo a : Nat} (h : Memory.wfFrom lo m = true) (ha : 4096 ≤ a) :
    m.byteAt a = Memory.unlisted a := by
  induction m generalizing lo with
  | nil => rfl
  | cons c rest ih =>
    simp only [Memory.wfFrom, Bool.and_eq_true, decide_eq_true_eq, Config.memSize] at h
    have hc : c.1 < 4096 := of_decide_eq_true h.1.1.2
    rw [Memory.byteAt, if_neg (by omega)]
    exact ih h.2

/-- A write leaves every other address alone, whatever the memory's form. -/
theorem Memory.byteAt_writeByte_of_ne {a a' : Nat} (m : Memory) (b : Byte) (h : a' ≠ a) :
    (m.writeByte a b).byteAt a' = m.byteAt a' := by
  induction m with
  | nil => unfold Memory.writeByte; split <;> simp [Memory.byteAt, Ne.symm h]
  | cons c rest ih =>
    unfold Memory.writeByte
    by_cases h1 : a < c.1
    · rw [if_pos h1]; split <;> simp [Memory.byteAt, Ne.symm h]
    · rw [if_neg h1]
      by_cases h2 : a = c.1
      · rw [if_pos h2]
        have : ¬ c.1 = a' := fun e => h (by omega)
        split <;> simp [Memory.byteAt, this, Ne.symm h]
      · rw [if_neg h2]; simp only [Memory.byteAt, ih]

/-- A read after a write to the same address gives the byte written. -/
theorem Memory.byteAt_writeByte_self {m : Memory} {lo a : Nat} (b : Byte) (h : Memory.wfFrom lo m = true) :
    (m.writeByte a b).byteAt a = b := by
  induction m generalizing lo with
  | nil => unfold Memory.writeByte; split <;> simp_all [Memory.byteAt]
  | cons c rest ih =>
    simp only [Memory.wfFrom, Bool.and_eq_true, decide_eq_true_eq] at h
    unfold Memory.writeByte
    by_cases h1 : a < c.1
    · rw [if_pos h1]
      split
      · rename_i hb
        rw [Memory.byteAt, if_neg (by omega), Memory.byteAt_of_lt h.2 (by omega), hb]
      · simp [Memory.byteAt]
    · rw [if_neg h1]
      by_cases h2 : a = c.1
      · rw [if_pos h2]
        split
        · rename_i hb
          rw [Memory.byteAt_of_lt h.2 (by omega), hb]
        · simp [Memory.byteAt]
      · rw [if_neg h2, Memory.byteAt, if_neg (Ne.symm h2)]
        exact ih h.2

theorem Memory.wfFrom_writeByte {m : Memory} {lo a : Nat} (b : Byte) (h : Memory.wfFrom lo m = true) (hlo : lo ≤ a)
    (ha : a < 4096) : Memory.wfFrom lo (m.writeByte a b) = true := by
  induction m generalizing lo with
  | nil => unfold Memory.writeByte; split <;> simp_all [Memory.wfFrom, Config.memSize]
  | cons c rest ih =>
    have h0 := h
    simp only [Memory.wfFrom, Bool.and_eq_true, decide_eq_true_eq] at h
    unfold Memory.writeByte
    by_cases h1 : a < c.1
    · rw [if_pos h1]
      split
      · exact h0
      · simp_all [Memory.wfFrom, Config.memSize]
    · rw [if_neg h1]
      by_cases h2 : a = c.1
      · rw [if_pos h2]
        split
        · exact Memory.wfFrom_mono h.2 (by omega)
        · simp_all [Memory.wfFrom]
      · rw [if_neg h2]
        simp only [Memory.wfFrom, Bool.and_eq_true, decide_eq_true_eq]
        exact ⟨h.1, ih h.2 (by omega)⟩

/-- A byte write keeps the canonical form. -/
theorem Memory.wf_writeByte {m : Memory} {a : Nat} (b : Byte) (h : m.wf = true) (ha : a < 4096) :
    (m.writeByte a b).wf = true :=
  Memory.wfFrom_writeByte b h (Nat.zero_le a) ha

/-- A write of several bytes keeps the canonical form. -/
theorem Memory.wf_writeBytes {m : Memory} {a : Nat} {bs : List Byte} (h : m.wf = true)
    (ha : bs = [] ∨ a + bs.length ≤ 4096) : (m.writeBytes a bs).wf = true := by
  induction bs generalizing m a with
  | nil => exact h
  | cons b rest ih =>
    have hl : a + (rest.length + 1) ≤ 4096 := by simpa using ha
    exact ih (Memory.wf_writeByte b h (by omega)) (.inr (by omega))

theorem Memory.byteAt_writeBytes_of_outside {a a' : Nat} (m : Memory) (bs : List Byte)
    (h : a' < a ∨ a + bs.length ≤ a') : (m.writeBytes a bs).byteAt a' = m.byteAt a' := by
  induction bs generalizing m a with
  | nil => rfl
  | cons b rest ih =>
    simp only [List.length_cons] at h
    rw [Memory.writeBytes, ih _ (by omega), Memory.byteAt_writeByte_of_ne _ _ (by omega)]

theorem Memory.byteAt_writeBytes_of_inside {m : Memory} {a k : Nat} {bs : List Byte} (h : m.wf = true)
    (ha : a + bs.length ≤ 4096) (hk : k < bs.length) : (m.writeBytes a bs).byteAt (a + k) = bs[k] := by
  induction bs generalizing m a k with
  | nil => simp at hk
  | cons b rest ih =>
    simp only [List.length_cons] at ha hk
    cases k with
    | zero =>
      rw [Memory.writeBytes, Memory.byteAt_writeBytes_of_outside _ _ (by omega)]
      exact Memory.byteAt_writeByte_self b h
    | succ k =>
      have := ih (m := m.writeByte a b) (a := a + 1) (k := k) (Memory.wf_writeByte b h (by omega)) (by omega) (by omega)
      rw [Memory.writeBytes, show a + (k + 1) = a + 1 + k by omega]
      simpa using this

@[simp] theorem Memory.length_readBytes (m : Memory) (a n : Nat) : (m.readBytes a n).length = n := by
  simp [Memory.readBytes]

@[simp] theorem Memory.getElem_readBytes (m : Memory) (a n k : Nat) (h : k < (m.readBytes a n).length) :
    (m.readBytes a n)[k] = m.byteAt (a + k) := by
  simp [Memory.readBytes]

/-- What follows a read: the failure of its check, or the continuation on the bytes. -/
theorem readThen_next {s t : State} {a n : Nat} {k : List Byte → Result} (h : readThen s a n k = .next t) :
    (n = 0 ∨ a + n ≤ 4096) ∧ k (s.mem.readBytes a n) = .next t := by
  unfold readThen at h
  split at h
  · cases h
  · exact ⟨outOfBounds_eq_none.1 ‹_›, h⟩

theorem readThen_of_le {s : State} {a n : Nat} (k : List Byte → Result) (h : n = 0 ∨ a + n ≤ 4096) :
    readThen s a n k = k (s.mem.readBytes a n) := by
  rw [readThen, outOfBounds_eq_none.2 h]

theorem readThen_of_gt {s : State} {a n : Nat} (k : List Byte → Result) (h0 : n ≠ 0) (h : 4096 < a + n) :
    readThen s a n k = .fault (.memoryOutOfBounds (max a 4096)) := by
  rw [readThen, outOfBounds_eq_some.2 ⟨⟨h0, h⟩, rfl⟩]; rfl

/-- What follows a write: the failure of its check, or the continuation on the state with the bytes stored. -/
theorem writeThen_next {s t : State} {a : Nat} {bs : List Byte} {k : State → Result}
    (h : writeThen s a bs k = .next t) :
    (bs.length = 0 ∨ a + bs.length ≤ 4096) ∧ k { s with mem := s.mem.writeBytes a bs } = .next t := by
  unfold writeThen at h
  split at h
  · cases h
  · exact ⟨outOfBounds_eq_none.1 ‹_›, h⟩

theorem writeThen_of_le {s : State} {a : Nat} {bs : List Byte} (k : State → Result)
    (h : bs.length = 0 ∨ a + bs.length ≤ 4096) :
    writeThen s a bs k = k { s with mem := s.mem.writeBytes a bs } := by
  rw [writeThen, outOfBounds_eq_none.2 h]

theorem writeThen_of_gt {s : State} {a : Nat} {bs : List Byte} (k : State → Result) (h0 : bs.length ≠ 0)
    (h : 4096 < a + bs.length) : writeThen s a bs k = .fault (.memoryOutOfBounds (max a 4096)) := by
  rw [writeThen, outOfBounds_eq_some.2 ⟨⟨h0, h⟩, rfl⟩]; rfl

end Sys2Proof.Machine
end

