-- ==== Sys2Proof/Laws/Display.lean ====
section
/-! SUPPORT. What drawing a sprite does: each pixel is its old value XOR the sprite's bit there, and the collision mark says
whether a set bit fell on a set pixel (44_display R230, R231). -/

namespace Sys2Proof.Machine

theorem pixel_flipPixel (fb : BitVec 2048) {x y x' y' : Nat} (hx : x < 64) (hx' : x' < 64)
    (hy' : y' < 32) :
    pixel (flipPixel fb x y) x' y' = (pixel fb x' y' ^^ (decide (x = x') && decide (y = y'))) := by
  unfold pixel flipPixel pixelIndex Config.fbWidth
  rw [BitVec.getLsbD_xor, BitVec.getLsbD_twoPow]
  congr 1
  rw [Bool.eq_iff_iff]
  simp only [Bool.and_eq_true, decide_eq_true_eq]
  omega

/-- The row's first k columns drawn, as `drawRow` folds them. -/
def drawCols (x0 y : Nat) (row : Byte) (k : Nat) (d : BitVec 2048 × Bool) : BitVec 2048 × Bool :=
  (List.range k).foldl
    (fun acc c => if rowBit row c then drawPixel ((x0 + c) % Config.fbWidth) y acc else acc) d

theorem drawRow_eq (x0 y : Nat) (row : Byte) (d : BitVec 2048 × Bool) : drawRow x0 y row d = drawCols x0 y row 8 d :=
  rfl

theorem drawCols_succ (x0 y : Nat) (row : Byte) (k : Nat) (d : BitVec 2048 × Bool) :
    drawCols x0 y row (k + 1) d =
      if rowBit row k then drawPixel ((x0 + k) % 64) y (drawCols x0 y row k d) else drawCols x0 y row k d := by
  simp [drawCols, List.range_succ, Config.fbWidth]

theorem pixel_drawCols (x0 y : Nat) (row : Byte) (k : Nat) (d : BitVec 2048 × Bool) (hk : k ≤ 8)
    {x' y' : Nat} (hx' : x' < 64) (hy' : y' < 32) :
    pixel (drawCols x0 y row k d).1 x' y' =
      (pixel d.1 x' y' ^^ (decide (y = y') && (decide ((x' + 64 - x0 % 64) % 64 < k) &&
        rowBit row ((x' + 64 - x0 % 64) % 64)))) := by
  induction k with
  | zero => simp [drawCols]
  | succ k ih =>
    have ih := ih (by omega)
    rw [drawCols_succ]
    have hcol : (x0 + k) % 64 = x' ↔ (x' + 64 - x0 % 64) % 64 = k := by omega
    generalize hc : (x' + 64 - x0 % 64) % 64 = c at ih hcol ⊢
    split
    · rename_i hb
      simp only [drawPixel]
      rw [pixel_flipPixel _ (Nat.mod_lt _ (by decide)) hx' hy', ih]
      by_cases he : c = k
      · subst he; simp [hcol, hb]
      · have h1 : ¬ (x0 + k) % 64 = x' := fun e => he (hcol.1 e)
        have h2 : c < k + 1 ↔ c < k := by omega
        simp [h1, h2]
    · rename_i hb
      rw [ih]
      by_cases he : c = k
      · subst he; simp [hb]
      · have h2 : c < k + 1 ↔ c < k := by omega
        simp [h2]

theorem collision_drawCols (x0 y : Nat) (row : Byte) (k : Nat) (d : BitVec 2048 × Bool) (hk : k ≤ 8) (hy : y < 32) :
    (drawCols x0 y row k d).2 = true ↔
      d.2 = true ∨ ∃ c, c < k ∧ rowBit row c = true ∧ pixel d.1 ((x0 + c) % 64) y = true := by
  induction k with
  | zero => simp [drawCols]
  | succ k ih =>
    have ih := ih (by omega)
    have hsplit : (∃ c, c < k + 1 ∧ rowBit row c = true ∧ pixel d.1 ((x0 + c) % 64) y = true) ↔
        (∃ c, c < k ∧ rowBit row c = true ∧ pixel d.1 ((x0 + c) % 64) y = true) ∨
          rowBit row k = true ∧ pixel d.1 ((x0 + k) % 64) y = true := by
      constructor
      · rintro ⟨c, hc, h⟩
        by_cases he : c = k
        · exact .inr (he ▸ h)
        · exact .inl ⟨c, by omega, h⟩
      · rintro (⟨c, hc, h⟩ | h)
        · exact ⟨c, by omega, h⟩
        · exact ⟨k, by omega, h⟩
    rw [drawCols_succ, hsplit]
    split
    · rename_i hb
      have hp := pixel_drawCols x0 y row k d (by omega) (x' := (x0 + k) % 64) (Nat.mod_lt _ (by decide)) hy
      rw [show ((x0 + k) % 64 + 64 - x0 % 64) % 64 = k by omega] at hp
      simp only [Nat.lt_irrefl, decide_false, Bool.false_and, Bool.and_false, Bool.xor_false] at hp
      simp only [drawPixel, Bool.or_eq_true, ih, hp, hb, true_and, or_assoc]
    · rename_i hb
      simp [ih, hb]

/-- Drawing rows: the pixel law. -/
theorem pixel_drawRows (x0 y0 : Nat) (rows : List Byte) (d : BitVec 2048 × Bool) (hn : rows.length ≤ 32)
    {x y : Nat} (hx : x < 64) (hy : y < 32) :
    pixel (drawRows x0 y0 rows d).1 x y = (pixel d.1 x y ^^ spriteBit x0 y0 rows x y) := by
  induction rows generalizing y0 d with
  | nil => simp [drawRows, spriteBit]
  | cons row rest ih =>
    simp only [List.length_cons] at hn
    rw [drawRows, ih _ _ (by omega), drawRow_eq, Config.fbHeight,
      pixel_drawCols _ _ _ _ _ (by omega) hx hy, Bool.xor_assoc]
    congr 1
    unfold spriteBit
    simp only [rowBit, List.length_cons]
    generalize (x + 64 - x0 % 64) % 64 = c
    by_cases he : y0 % 32 = y
    · have h2 : (y + 32 - (y0 + 1) % 32) % 32 = 31 := by omega
      have h3 : ¬ 31 < rest.length := by omega
      simp [he, h2, h3]
    · obtain ⟨r, hr⟩ : ∃ r, (y + 32 - y0 % 32) % 32 = r + 1 :=
        ⟨(y + 32 - y0 % 32) % 32 - 1, by omega⟩
      have h2 : (y + 32 - (y0 + 1) % 32) % 32 = r := by omega
      simp [he, hr, h2]

/-- Drawing rows: the collision law. -/
theorem collision_drawRows (x0 y0 : Nat) (rows : List Byte) (d : BitVec 2048 × Bool) (hn : rows.length ≤ 32) :
    (drawRows x0 y0 rows d).2 = true ↔
      d.2 = true ∨ ∃ r c, r < rows.length ∧ c < 8 ∧ rowBit (rows.getD r 0) c = true ∧
        pixel d.1 ((x0 + c) % 64) ((y0 + r) % 32) = true := by
  induction rows generalizing y0 d with
  | nil => simp [drawRows]
  | cons row rest ih =>
    simp only [List.length_cons] at hn
    have hy : y0 % 32 < 32 := Nat.mod_lt _ (by decide)
    rw [drawRows, ih _ _ (by omega), drawRow_eq, Config.fbHeight, collision_drawCols _ _ _ _ _ (by omega) hy, or_assoc]
    apply or_congr Iff.rfl
    have hkeep : ∀ r c, r < rest.length → pixel (drawCols x0 (y0 % 32) row 8 d).1 ((x0 + c) % 64) ((y0 + 1 + r) % 32) =
        pixel d.1 ((x0 + c) % 64) ((y0 + (r + 1)) % 32) := fun r c hr => by
      rw [pixel_drawCols _ _ _ _ _ (by omega) (Nat.mod_lt _ (by decide)) (Nat.mod_lt _ (by decide))]
      have : ¬ y0 % 32 = (y0 + 1 + r) % 32 := by omega
      simp only [this, decide_false, Bool.false_and, Bool.xor_false]
      rw [show y0 + 1 + r = y0 + (r + 1) by omega]
    constructor
    · rintro (⟨c, hc, h⟩ | ⟨r, c, hr, hc, h1, h2⟩)
      · exact ⟨0, c, by simp, hc, by simpa using h⟩
      · exact ⟨r + 1, c, by simpa using hr, hc, by simpa using h1, by rw [← hkeep r c hr]; exact h2⟩
    · rintro ⟨r, c, hr, hc, h1, h2⟩
      cases r with
      | zero => exact .inl ⟨c, hc, by simpa using h1, by simpa using h2⟩
      | succ r =>
        simp only [List.length_cons] at hr
        exact .inr ⟨r, c, by omega, hc, by simpa using h1, by rw [hkeep r c (by omega)]; exact h2⟩

end Sys2Proof.Machine
end

