-- ==== Sys2Proof/Laws/State.lean ====
section
/-! SUPPORT. One lemma per field per update of State, each true by rfl, so that no proof unfolds a record update; and the
laws of the register file. -/

namespace Sys2Proof.Machine

variable (s : State)

/-! ### setReg -/

@[simp] theorem State.setReg_v (x : RegIx) (b : Byte) : (s.setReg x b).v = s.v.set x.toNat b x.isLt := rfl
@[simp] theorem State.setReg_i (x : RegIx) (b : Byte) : (s.setReg x b).i = s.i := rfl
@[simp] theorem State.setReg_pc (x : RegIx) (b : Byte) : (s.setReg x b).pc = s.pc := rfl
@[simp] theorem State.setReg_stack (x : RegIx) (b : Byte) : (s.setReg x b).stack = s.stack := rfl
@[simp] theorem State.setReg_sp (x : RegIx) (b : Byte) : (s.setReg x b).sp = s.sp := rfl
@[simp] theorem State.setReg_dt (x : RegIx) (b : Byte) : (s.setReg x b).dt = s.dt := rfl
@[simp] theorem State.setReg_st (x : RegIx) (b : Byte) : (s.setReg x b).st = s.st := rfl
@[simp] theorem State.setReg_mem (x : RegIx) (b : Byte) : (s.setReg x b).mem = s.mem := rfl
@[simp] theorem State.setReg_fb (x : RegIx) (b : Byte) : (s.setReg x b).fb = s.fb := rfl
@[simp] theorem State.setReg_redraw (x : RegIx) (b : Byte) : (s.setReg x b).redraw = s.redraw := rfl
@[simp] theorem State.setReg_sound (x : RegIx) (b : Byte) : (s.setReg x b).sound = s.sound := rfl
@[simp] theorem State.setReg_keys (x : RegIx) (b : Byte) : (s.setReg x b).keys = s.keys := rfl
@[simp] theorem State.setReg_faultMark (x : RegIx) (b : Byte) : (s.setReg x b).faultMark = s.faultMark := rfl
@[simp] theorem State.setReg_cfg (x : RegIx) (b : Byte) : (s.setReg x b).cfg = s.cfg := rfl
@[simp] theorem State.setReg_rndIn (x : RegIx) (b : Byte) : (s.setReg x b).rndIn = s.rndIn := rfl
@[simp] theorem State.setReg_drawIndex (x : RegIx) (b : Byte) : (s.setReg x b).drawIndex = s.drawIndex := rfl

/-! ### setRegFlag -/

@[simp] theorem State.setRegFlag_i (x : RegIx) (b f : Byte) : (s.setRegFlag x b f).i = s.i := rfl
@[simp] theorem State.setRegFlag_pc (x : RegIx) (b f : Byte) : (s.setRegFlag x b f).pc = s.pc := rfl
@[simp] theorem State.setRegFlag_stack (x : RegIx) (b f : Byte) : (s.setRegFlag x b f).stack = s.stack := rfl
@[simp] theorem State.setRegFlag_sp (x : RegIx) (b f : Byte) : (s.setRegFlag x b f).sp = s.sp := rfl
@[simp] theorem State.setRegFlag_dt (x : RegIx) (b f : Byte) : (s.setRegFlag x b f).dt = s.dt := rfl
@[simp] theorem State.setRegFlag_st (x : RegIx) (b f : Byte) : (s.setRegFlag x b f).st = s.st := rfl
@[simp] theorem State.setRegFlag_mem (x : RegIx) (b f : Byte) : (s.setRegFlag x b f).mem = s.mem := rfl
@[simp] theorem State.setRegFlag_fb (x : RegIx) (b f : Byte) : (s.setRegFlag x b f).fb = s.fb := rfl
@[simp] theorem State.setRegFlag_redraw (x : RegIx) (b f : Byte) : (s.setRegFlag x b f).redraw = s.redraw := rfl
@[simp] theorem State.setRegFlag_sound (x : RegIx) (b f : Byte) : (s.setRegFlag x b f).sound = s.sound := rfl
@[simp] theorem State.setRegFlag_keys (x : RegIx) (b f : Byte) : (s.setRegFlag x b f).keys = s.keys := rfl
@[simp] theorem State.setRegFlag_faultMark (x : RegIx) (b f : Byte) : (s.setRegFlag x b f).faultMark = s.faultMark := rfl
@[simp] theorem State.setRegFlag_cfg (x : RegIx) (b f : Byte) : (s.setRegFlag x b f).cfg = s.cfg := rfl
@[simp] theorem State.setRegFlag_rndIn (x : RegIx) (b f : Byte) : (s.setRegFlag x b f).rndIn = s.rndIn := rfl
@[simp] theorem State.setRegFlag_drawIndex (x : RegIx) (b f : Byte) : (s.setRegFlag x b f).drawIndex = s.drawIndex := rfl

/-! ### setI -/

@[simp] theorem State.setI_v (n : Nat) : (s.setI n).v = s.v := rfl
@[simp] theorem State.setI_i (n : Nat) : (s.setI n).i = BitVec.ofNat 16 (n % 2 ^ s.cfg.iBits.width) := rfl
@[simp] theorem State.setI_pc (n : Nat) : (s.setI n).pc = s.pc := rfl
@[simp] theorem State.setI_stack (n : Nat) : (s.setI n).stack = s.stack := rfl
@[simp] theorem State.setI_sp (n : Nat) : (s.setI n).sp = s.sp := rfl
@[simp] theorem State.setI_dt (n : Nat) : (s.setI n).dt = s.dt := rfl
@[simp] theorem State.setI_st (n : Nat) : (s.setI n).st = s.st := rfl
@[simp] theorem State.setI_mem (n : Nat) : (s.setI n).mem = s.mem := rfl
@[simp] theorem State.setI_fb (n : Nat) : (s.setI n).fb = s.fb := rfl
@[simp] theorem State.setI_redraw (n : Nat) : (s.setI n).redraw = s.redraw := rfl
@[simp] theorem State.setI_sound (n : Nat) : (s.setI n).sound = s.sound := rfl
@[simp] theorem State.setI_keys (n : Nat) : (s.setI n).keys = s.keys := rfl
@[simp] theorem State.setI_faultMark (n : Nat) : (s.setI n).faultMark = s.faultMark := rfl
@[simp] theorem State.setI_cfg (n : Nat) : (s.setI n).cfg = s.cfg := rfl
@[simp] theorem State.setI_rndIn (n : Nat) : (s.setI n).rndIn = s.rndIn := rfl
@[simp] theorem State.setI_drawIndex (n : Nat) : (s.setI n).drawIndex = s.drawIndex := rfl

/-! ### goto -/

@[simp] theorem State.goto_v (w : Word) : (s.goto w).v = s.v := rfl
@[simp] theorem State.goto_i (w : Word) : (s.goto w).i = s.i := rfl
@[simp] theorem State.goto_pc (w : Word) : (s.goto w).pc = w := rfl
@[simp] theorem State.goto_stack (w : Word) : (s.goto w).stack = s.stack := rfl
@[simp] theorem State.goto_sp (w : Word) : (s.goto w).sp = s.sp := rfl
@[simp] theorem State.goto_dt (w : Word) : (s.goto w).dt = s.dt := rfl
@[simp] theorem State.goto_st (w : Word) : (s.goto w).st = s.st := rfl
@[simp] theorem State.goto_mem (w : Word) : (s.goto w).mem = s.mem := rfl
@[simp] theorem State.goto_fb (w : Word) : (s.goto w).fb = s.fb := rfl
@[simp] theorem State.goto_redraw (w : Word) : (s.goto w).redraw = s.redraw := rfl
@[simp] theorem State.goto_sound (w : Word) : (s.goto w).sound = s.sound := rfl
@[simp] theorem State.goto_keys (w : Word) : (s.goto w).keys = s.keys := rfl
@[simp] theorem State.goto_faultMark (w : Word) : (s.goto w).faultMark = s.faultMark := rfl
@[simp] theorem State.goto_cfg (w : Word) : (s.goto w).cfg = s.cfg := rfl
@[simp] theorem State.goto_rndIn (w : Word) : (s.goto w).rndIn = s.rndIn := rfl
@[simp] theorem State.goto_drawIndex (w : Word) : (s.goto w).drawIndex = s.drawIndex := rfl

/-! ### advance -/

@[simp] theorem State.advance_v : (s.advance).v = s.v := rfl
@[simp] theorem State.advance_i : (s.advance).i = s.i := rfl
@[simp] theorem State.advance_pc : (s.advance).pc = s.pc + 2 := rfl
@[simp] theorem State.advance_stack : (s.advance).stack = s.stack := rfl
@[simp] theorem State.advance_sp : (s.advance).sp = s.sp := rfl
@[simp] theorem State.advance_dt : (s.advance).dt = s.dt := rfl
@[simp] theorem State.advance_st : (s.advance).st = s.st := rfl
@[simp] theorem State.advance_mem : (s.advance).mem = s.mem := rfl
@[simp] theorem State.advance_fb : (s.advance).fb = s.fb := rfl
@[simp] theorem State.advance_redraw : (s.advance).redraw = s.redraw := rfl
@[simp] theorem State.advance_sound : (s.advance).sound = s.sound := rfl
@[simp] theorem State.advance_keys : (s.advance).keys = s.keys := rfl
@[simp] theorem State.advance_faultMark : (s.advance).faultMark = s.faultMark := rfl
@[simp] theorem State.advance_cfg : (s.advance).cfg = s.cfg := rfl
@[simp] theorem State.advance_rndIn : (s.advance).rndIn = s.rndIn := rfl
@[simp] theorem State.advance_drawIndex : (s.advance).drawIndex = s.drawIndex := rfl

/-! ### skipIf -/

@[simp] theorem State.skipIf_v (c : Bool) : (s.skipIf c).v = s.v := rfl
@[simp] theorem State.skipIf_i (c : Bool) : (s.skipIf c).i = s.i := rfl
@[simp] theorem State.skipIf_pc (c : Bool) : (s.skipIf c).pc = if c then s.pc + 4 else s.pc + 2 := rfl
@[simp] theorem State.skipIf_stack (c : Bool) : (s.skipIf c).stack = s.stack := rfl
@[simp] theorem State.skipIf_sp (c : Bool) : (s.skipIf c).sp = s.sp := rfl
@[simp] theorem State.skipIf_dt (c : Bool) : (s.skipIf c).dt = s.dt := rfl
@[simp] theorem State.skipIf_st (c : Bool) : (s.skipIf c).st = s.st := rfl
@[simp] theorem State.skipIf_mem (c : Bool) : (s.skipIf c).mem = s.mem := rfl
@[simp] theorem State.skipIf_fb (c : Bool) : (s.skipIf c).fb = s.fb := rfl
@[simp] theorem State.skipIf_redraw (c : Bool) : (s.skipIf c).redraw = s.redraw := rfl
@[simp] theorem State.skipIf_sound (c : Bool) : (s.skipIf c).sound = s.sound := rfl
@[simp] theorem State.skipIf_keys (c : Bool) : (s.skipIf c).keys = s.keys := rfl
@[simp] theorem State.skipIf_faultMark (c : Bool) : (s.skipIf c).faultMark = s.faultMark := rfl
@[simp] theorem State.skipIf_cfg (c : Bool) : (s.skipIf c).cfg = s.cfg := rfl
@[simp] theorem State.skipIf_rndIn (c : Bool) : (s.skipIf c).rndIn = s.rndIn := rfl
@[simp] theorem State.skipIf_drawIndex (c : Bool) : (s.skipIf c).drawIndex = s.drawIndex := rfl

/-! ### tick -/

@[simp] theorem State.tick_v : (s.tick).v = s.v := rfl
@[simp] theorem State.tick_i : (s.tick).i = s.i := rfl
@[simp] theorem State.tick_pc : (s.tick).pc = s.pc := rfl
@[simp] theorem State.tick_stack : (s.tick).stack = s.stack := rfl
@[simp] theorem State.tick_sp : (s.tick).sp = s.sp := rfl
@[simp] theorem State.tick_dt : (s.tick).dt = countDown s.dt := rfl
@[simp] theorem State.tick_st : (s.tick).st = countDown s.st := rfl
@[simp] theorem State.tick_mem : (s.tick).mem = s.mem := rfl
@[simp] theorem State.tick_fb : (s.tick).fb = s.fb := rfl
@[simp] theorem State.tick_redraw : (s.tick).redraw = s.redraw := rfl
@[simp] theorem State.tick_sound : (s.tick).sound = (s.sound || s.st == 1) := rfl
@[simp] theorem State.tick_keys : (s.tick).keys = s.keys := rfl
@[simp] theorem State.tick_faultMark : (s.tick).faultMark = s.faultMark := rfl
@[simp] theorem State.tick_cfg : (s.tick).cfg = s.cfg := rfl
@[simp] theorem State.tick_rndIn : (s.tick).rndIn = s.rndIn := rfl
@[simp] theorem State.tick_drawIndex : (s.tick).drawIndex = s.drawIndex := rfl

/-! ### endStep -/

@[simp] theorem State.endStep_v : (s.endStep).v = s.v := rfl
@[simp] theorem State.endStep_i : (s.endStep).i = s.i := rfl
@[simp] theorem State.endStep_pc : (s.endStep).pc = s.pc := rfl
@[simp] theorem State.endStep_stack : (s.endStep).stack = s.stack := rfl
@[simp] theorem State.endStep_sp : (s.endStep).sp = s.sp := rfl
@[simp] theorem State.endStep_dt : (s.endStep).dt = countDown s.dt := rfl
@[simp] theorem State.endStep_st : (s.endStep).st = countDown s.st := rfl
@[simp] theorem State.endStep_mem : (s.endStep).mem = s.mem := rfl
@[simp] theorem State.endStep_fb : (s.endStep).fb = s.fb := rfl
@[simp] theorem State.endStep_redraw : (s.endStep).redraw = s.redraw := rfl
@[simp] theorem State.endStep_sound : (s.endStep).sound = (s.sound || s.st == 1) := rfl
@[simp] theorem State.endStep_keys : (s.endStep).keys = s.keys := rfl
@[simp] theorem State.endStep_faultMark : (s.endStep).faultMark = s.faultMark := rfl
@[simp] theorem State.endStep_cfg : (s.endStep).cfg = s.cfg := rfl
@[simp] theorem State.endStep_rndIn : (s.endStep).rndIn = none := rfl
@[simp] theorem State.endStep_drawIndex : (s.endStep).drawIndex = s.drawIndex + 1 := rfl

/-! ### presentRnd -/

@[simp] theorem State.presentRnd_v (b : Byte) : (s.presentRnd b).v = s.v := rfl
@[simp] theorem State.presentRnd_i (b : Byte) : (s.presentRnd b).i = s.i := rfl
@[simp] theorem State.presentRnd_pc (b : Byte) : (s.presentRnd b).pc = s.pc := rfl
@[simp] theorem State.presentRnd_stack (b : Byte) : (s.presentRnd b).stack = s.stack := rfl
@[simp] theorem State.presentRnd_sp (b : Byte) : (s.presentRnd b).sp = s.sp := rfl
@[simp] theorem State.presentRnd_dt (b : Byte) : (s.presentRnd b).dt = s.dt := rfl
@[simp] theorem State.presentRnd_st (b : Byte) : (s.presentRnd b).st = s.st := rfl
@[simp] theorem State.presentRnd_mem (b : Byte) : (s.presentRnd b).mem = s.mem := rfl
@[simp] theorem State.presentRnd_fb (b : Byte) : (s.presentRnd b).fb = s.fb := rfl
@[simp] theorem State.presentRnd_redraw (b : Byte) : (s.presentRnd b).redraw = s.redraw := rfl
@[simp] theorem State.presentRnd_sound (b : Byte) : (s.presentRnd b).sound = s.sound := rfl
@[simp] theorem State.presentRnd_keys (b : Byte) : (s.presentRnd b).keys = s.keys := rfl
@[simp] theorem State.presentRnd_faultMark (b : Byte) : (s.presentRnd b).faultMark = s.faultMark := rfl
@[simp] theorem State.presentRnd_cfg (b : Byte) : (s.presentRnd b).cfg = s.cfg := rfl
@[simp] theorem State.presentRnd_rndIn (b : Byte) : (s.presentRnd b).rndIn = some b := rfl
@[simp] theorem State.presentRnd_drawIndex (b : Byte) : (s.presentRnd b).drawIndex = s.drawIndex := rfl

/-! ### The register file -/

@[simp] theorem State.reg_setReg_self (x : RegIx) (b : Byte) : (s.setReg x b).reg x = b := by
  simp [State.reg, State.setReg]

theorem State.reg_setReg_of_ne {x r : RegIx} (b : Byte) (h : r ≠ x) : (s.setReg x b).reg r = s.reg r := by
  have : ¬ x.toNat = r.toNat := fun e => h (BitVec.eq_of_toNat_eq e.symm)
  simp [State.reg, State.setReg, this]

theorem State.reg_setReg (x r : RegIx) (b : Byte) : (s.setReg x b).reg r = if r = x then b else s.reg r := by
  split
  · subst r; exact s.reg_setReg_self x b
  · exact s.reg_setReg_of_ne b ‹_›

@[simp] theorem State.reg_setRegFlag_vf (x : RegIx) (b f : Byte) : (s.setRegFlag x b f).reg vf = f := by
  simp [State.setRegFlag]

theorem State.reg_setRegFlag (x r : RegIx) (b f : Byte) :
    (s.setRegFlag x b f).reg r = if r = vf then f else if r = x then b else s.reg r := by
  rw [State.setRegFlag, State.reg_setReg, State.reg_setReg]

/-- A register read looks at V alone. -/
theorem State.reg_congr {s t : State} (h : t.v = s.v) (r : RegIx) : t.reg r = s.reg r := by
  simp [State.reg, h]

@[simp] theorem State.reg_setI (n : Nat) (r : RegIx) : (s.setI n).reg r = s.reg r := rfl
@[simp] theorem State.reg_goto (w : Word) (r : RegIx) : (s.goto w).reg r = s.reg r := rfl
@[simp] theorem State.reg_advance (r : RegIx) : s.advance.reg r = s.reg r := rfl
@[simp] theorem State.reg_skipIf (c : Bool) (r : RegIx) : (s.skipIf c).reg r = s.reg r := rfl
@[simp] theorem State.reg_tick (r : RegIx) : s.tick.reg r = s.reg r := rfl
@[simp] theorem State.reg_endStep (r : RegIx) : s.endStep.reg r = s.reg r := rfl
@[simp] theorem State.reg_presentRnd (b : Byte) (r : RegIx) : (s.presentRnd b).reg r = s.reg r := rfl

end Sys2Proof.Machine
end

