-- ==== Sys2Proof/Laws/Ops.lean ====
section
/-! SUPPORT. What each shared operation can do, said once: the stack, the register block, an FX94 effect, the fetch, the
end of a step and the step transaction. -/

namespace Sys2Proof.Machine

/-! ### The stack -/

theorem pushThen_of_lt {s : State} (v : Word) (k : State → Result) (h : s.sp.val < 16) :
    pushThen s v k = k { s with stack := s.stack.set s.sp.val v h, sp := ⟨s.sp.val + 1, Nat.succ_lt_succ h⟩ } := by
  rw [pushThen, dif_pos h]

theorem pushThen_of_full {s : State} (v : Word) (k : State → Result) (h : s.sp.val = 16) :
    pushThen s v k = .fault .stackOverflow := by
  rw [pushThen, dif_neg (by omega)]; rfl

theorem pushThen_next {s t : State} {v : Word} {k : State → Result} (h : pushThen s v k = .next t) :
    ∃ hs : s.sp.val < 16,
      k { s with stack := s.stack.set s.sp.val v hs, sp := ⟨s.sp.val + 1, Nat.succ_lt_succ hs⟩ } = .next t := by
  unfold pushThen at h
  split at h
  · exact ⟨‹_›, h⟩
  · cases h

theorem popThen_of_pos {s : State} (k : Word → State → Result) (h : 0 < s.sp.val) :
    popThen s k = k (s.stack[s.sp.val - 1]'(by omega)) { s with sp := ⟨s.sp.val - 1, by omega⟩ } := by
  rw [popThen, dif_pos h]

theorem popThen_of_empty {s : State} (k : Word → State → Result) (h : s.sp.val = 0) :
    popThen s k = .fault .stackUnderflow := by
  rw [popThen, dif_neg (by omega)]; rfl

theorem popThen_next {s t : State} {k : Word → State → Result} (h : popThen s k = .next t) :
    ∃ _ : 0 < s.sp.val,
      k (s.stack[s.sp.val - 1]'(by omega)) { s with sp := ⟨s.sp.val - 1, by omega⟩ } = .next t := by
  unfold popThen at h
  split at h
  · exact ⟨‹_›, h⟩
  · cases h

/-! ### The register block -/

@[simp] theorem State.length_regBlock (s : State) (x : RegIx) : (s.regBlock x).length = x.toNat + 1 := by
  simp [State.regBlock]

@[simp] theorem State.getElem_regBlock (s : State) (x : RegIx) (k : Nat) (h : k < (s.regBlock x).length) :
    (s.regBlock x)[k] = s.reg (BitVec.ofNat 4 k) := by
  simp [State.regBlock]

/-- Loading registers writes V alone. -/
theorem State.loadRegs_eq (s : State) (k : Nat) (bs : List Byte) :
    s.loadRegs k bs = { s with v := (s.loadRegs k bs).v } := by
  induction bs generalizing s k with
  | nil => rfl
  | cons b rest ih => rw [State.loadRegs, ih]; rfl

@[simp] theorem State.loadRegs_i (s : State) (k : Nat) (bs : List Byte) : (s.loadRegs k bs).i = s.i := by rw [State.loadRegs_eq]
@[simp] theorem State.loadRegs_pc (s : State) (k : Nat) (bs : List Byte) : (s.loadRegs k bs).pc = s.pc := by rw [State.loadRegs_eq]
@[simp] theorem State.loadRegs_stack (s : State) (k : Nat) (bs : List Byte) : (s.loadRegs k bs).stack = s.stack := by rw [State.loadRegs_eq]
@[simp] theorem State.loadRegs_sp (s : State) (k : Nat) (bs : List Byte) : (s.loadRegs k bs).sp = s.sp := by rw [State.loadRegs_eq]
@[simp] theorem State.loadRegs_dt (s : State) (k : Nat) (bs : List Byte) : (s.loadRegs k bs).dt = s.dt := by rw [State.loadRegs_eq]
@[simp] theorem State.loadRegs_st (s : State) (k : Nat) (bs : List Byte) : (s.loadRegs k bs).st = s.st := by rw [State.loadRegs_eq]
@[simp] theorem State.loadRegs_mem (s : State) (k : Nat) (bs : List Byte) : (s.loadRegs k bs).mem = s.mem := by rw [State.loadRegs_eq]
@[simp] theorem State.loadRegs_fb (s : State) (k : Nat) (bs : List Byte) : (s.loadRegs k bs).fb = s.fb := by rw [State.loadRegs_eq]
@[simp] theorem State.loadRegs_redraw (s : State) (k : Nat) (bs : List Byte) : (s.loadRegs k bs).redraw = s.redraw := by rw [State.loadRegs_eq]
@[simp] theorem State.loadRegs_sound (s : State) (k : Nat) (bs : List Byte) : (s.loadRegs k bs).sound = s.sound := by rw [State.loadRegs_eq]
@[simp] theorem State.loadRegs_keys (s : State) (k : Nat) (bs : List Byte) : (s.loadRegs k bs).keys = s.keys := by rw [State.loadRegs_eq]
@[simp] theorem State.loadRegs_faultMark (s : State) (k : Nat) (bs : List Byte) : (s.loadRegs k bs).faultMark = s.faultMark := by rw [State.loadRegs_eq]
@[simp] theorem State.loadRegs_cfg (s : State) (k : Nat) (bs : List Byte) : (s.loadRegs k bs).cfg = s.cfg := by rw [State.loadRegs_eq]
@[simp] theorem State.loadRegs_rndIn (s : State) (k : Nat) (bs : List Byte) : (s.loadRegs k bs).rndIn = s.rndIn := by rw [State.loadRegs_eq]
@[simp] theorem State.loadRegs_drawIndex (s : State) (k : Nat) (bs : List Byte) : (s.loadRegs k bs).drawIndex = s.drawIndex := by rw [State.loadRegs_eq]

theorem State.reg_loadRegs_of_outside (s : State) (k : Nat) (bs : List Byte) (r : RegIx) (hk : k + bs.length ≤ 16)
    (h : r.toNat < k ∨ k + bs.length ≤ r.toNat) : (s.loadRegs k bs).reg r = s.reg r := by
  induction bs generalizing s k with
  | nil => rfl
  | cons b rest ih =>
    simp only [List.length_cons] at h hk
    have hne : r ≠ BitVec.ofNat 4 k := fun e => by
      have := congrArg BitVec.toNat e
      simp only [BitVec.toNat_ofNat] at this
      omega
    rw [State.loadRegs, ih _ _ (by omega) (by omega), State.reg_setReg_of_ne s b hne]

theorem State.reg_loadRegs_of_inside (s : State) (k : Nat) (bs : List Byte) (r : RegIx) (hk : k + bs.length ≤ 16)
    (h : k ≤ r.toNat) (hr : r.toNat - k < bs.length) : (s.loadRegs k bs).reg r = bs[r.toNat - k] := by
  induction bs generalizing s k with
  | nil => simp at hr
  | cons b rest ih =>
    simp only [List.length_cons] at hr hk
    by_cases he : r.toNat = k
    · have hx : BitVec.ofNat 4 k = r := by subst he; simp
      rw [State.loadRegs, State.reg_loadRegs_of_outside _ _ _ _ (by omega) (by omega), hx]
      simp [he]
    · have := ih (s.setReg (BitVec.ofNat 4 k) b) (k + 1) (by omega) (by omega) (by omega)
      rw [State.loadRegs, this]
      rw [List.getElem_cons, dif_neg (by omega)]
      congr 1

/-- I after a block copy; nothing else is touched. -/
theorem State.blockI_eq (s : State) (x : RegIx) : s.blockI x = { s with i := (s.blockI x).i } := by
  unfold State.blockI; split <;> rfl

@[simp] theorem State.blockI_v (s : State) (x : RegIx) : (s.blockI x).v = s.v := by rw [State.blockI_eq]
@[simp] theorem State.blockI_pc (s : State) (x : RegIx) : (s.blockI x).pc = s.pc := by rw [State.blockI_eq]
@[simp] theorem State.blockI_stack (s : State) (x : RegIx) : (s.blockI x).stack = s.stack := by rw [State.blockI_eq]
@[simp] theorem State.blockI_sp (s : State) (x : RegIx) : (s.blockI x).sp = s.sp := by rw [State.blockI_eq]
@[simp] theorem State.blockI_dt (s : State) (x : RegIx) : (s.blockI x).dt = s.dt := by rw [State.blockI_eq]
@[simp] theorem State.blockI_st (s : State) (x : RegIx) : (s.blockI x).st = s.st := by rw [State.blockI_eq]
@[simp] theorem State.blockI_mem (s : State) (x : RegIx) : (s.blockI x).mem = s.mem := by rw [State.blockI_eq]
@[simp] theorem State.blockI_fb (s : State) (x : RegIx) : (s.blockI x).fb = s.fb := by rw [State.blockI_eq]
@[simp] theorem State.blockI_redraw (s : State) (x : RegIx) : (s.blockI x).redraw = s.redraw := by rw [State.blockI_eq]
@[simp] theorem State.blockI_sound (s : State) (x : RegIx) : (s.blockI x).sound = s.sound := by rw [State.blockI_eq]
@[simp] theorem State.blockI_keys (s : State) (x : RegIx) : (s.blockI x).keys = s.keys := by rw [State.blockI_eq]
@[simp] theorem State.blockI_faultMark (s : State) (x : RegIx) : (s.blockI x).faultMark = s.faultMark := by rw [State.blockI_eq]
@[simp] theorem State.blockI_cfg (s : State) (x : RegIx) : (s.blockI x).cfg = s.cfg := by rw [State.blockI_eq]
@[simp] theorem State.blockI_rndIn (s : State) (x : RegIx) : (s.blockI x).rndIn = s.rndIn := by rw [State.blockI_eq]
@[simp] theorem State.blockI_drawIndex (s : State) (x : RegIx) : (s.blockI x).drawIndex = s.drawIndex := by rw [State.blockI_eq]

@[simp] theorem State.reg_blockI (s : State) (x r : RegIx) : (s.blockI x).reg r = s.reg r :=
  State.reg_congr (s.blockI_v x) r

/-- FX65's whole change: V and I. -/
theorem State.blockI_loadRegs_eq (s : State) (x : RegIx) (k : Nat) (bs : List Byte) :
    (s.loadRegs k bs).blockI x =
      { s with v := (s.loadRegs k bs).v, i := ((s.loadRegs k bs).blockI x).i } := by
  rw [State.blockI_eq]
  generalize ((s.loadRegs k bs).blockI x).i = i
  rw [State.loadRegs_eq]

theorem State.blockI_off {s : State} (x : RegIx) (h : s.cfg.loadStoreIncrementsI = false) : s.blockI x = s := by
  simp [State.blockI, h]

theorem State.blockI_on {s : State} (x : RegIx) (h : s.cfg.loadStoreIncrementsI = true) :
    s.blockI x = s.setI (s.i.toNat + x.toNat + 1) := by
  simp [State.blockI, h]

/-! ### An FX94 effect -/

/-- What `FX94_SEM` is asked depends on V, I, pc and memory alone: neither sp nor any stack entry, stale or in use, is read
(10_state R24, R30). -/
theorem State.fx94Query_congr {s u : State} (hv : u.v = s.v) (hi : u.i = s.i) (hp : u.pc = s.pc) (hm : u.mem = s.mem)
    (x : RegIx) : u.fx94Query x = s.fx94Query x := by
  rw [State.fx94Query, hv, hi, hp, hm]; rfl

theorem fx94OutOfBounds_eq_none {e : Config.Fx94Effect} :
    fx94OutOfBounds e = none ↔ (∀ a ∈ e.reads, a < 4096) ∧ ∀ c ∈ e.memWrites, c.1 < 4096 := by
  simp only [fx94OutOfBounds, List.find?_eq_none, List.mem_append, List.mem_map, decide_eq_true_eq]
  simp only [Config.memSize]
  constructor
  · exact fun h => ⟨fun a ha => Nat.lt_of_not_le (h a (.inl ha)),
      fun c hc => Nat.lt_of_not_le (h c.1 (.inr ⟨c, hc, rfl⟩))⟩
  · rintro ⟨h1, h2⟩ a (ha | ⟨c, hc, rfl⟩)
    · exact Nat.not_le_of_lt (h1 a ha)
    · exact Nat.not_le_of_lt (h2 c hc)

/-- The first address outside memory, reads before writes, is the one an effect fails at. -/
theorem fx94OutOfBounds_of_first {e : Config.Fx94Effect} {pre post : List Nat} {a : Nat}
    (h : e.reads ++ e.memWrites.map (·.1) = pre ++ a :: post) (hp : ∀ b ∈ pre, b < 4096) (ha : 4096 ≤ a) :
    fx94OutOfBounds e = some a := by
  have h1 : pre.find? (fun b => decide (Config.memSize ≤ b)) = none := by
    rw [List.find?_eq_none]
    intro b hb
    have := hp b hb
    simp only [decide_eq_true_eq]
    simp only [Config.memSize]
    omega
  have h2 : Config.memSize ≤ a := ha
  rw [fx94OutOfBounds, h, List.find?_append, h1]
  simp [h2]

theorem foldl_setReg_eq (ws : List (RegIx × Byte)) (s : State) :
    ws.foldl (fun t w => t.setReg w.1 w.2) s =
      { s with v := (ws.foldl (fun t w => t.setReg w.1 w.2) s).v } := by
  induction ws generalizing s with
  | nil => rfl
  | cons w rest ih => rw [List.foldl_cons, ih]; rfl

theorem reg_foldl_setReg_of_not_mem (ws : List (RegIx × Byte)) (s : State) (r : RegIx) (h : ∀ w ∈ ws, w.1 ≠ r) :
    (ws.foldl (fun t w => t.setReg w.1 w.2) s).reg r = s.reg r := by
  induction ws generalizing s with
  | nil => rfl
  | cons w rest ih =>
    rw [List.foldl_cons, ih _ fun w hw => h w (by simp [hw])]
    exact s.reg_setReg_of_ne w.2 (Ne.symm (h w (by simp)))

/-- An FX94 effect writes V, I and memory only (43_extended R207). -/
theorem State.applyFx94_eq (s : State) (e : Config.Fx94Effect) :
    s.applyFx94 e = { s with v := (s.applyFx94 e).v, i := (s.applyFx94 e).i, mem := (s.applyFx94 e).mem } := by
  unfold State.applyFx94
  rw [foldl_setReg_eq]
  cases e.iWrite <;> rfl

@[simp] theorem State.applyFx94_pc (s : State) (e : Config.Fx94Effect) : (s.applyFx94 e).pc = s.pc := by rw [State.applyFx94_eq]
@[simp] theorem State.applyFx94_stack (s : State) (e : Config.Fx94Effect) : (s.applyFx94 e).stack = s.stack := by rw [State.applyFx94_eq]
@[simp] theorem State.applyFx94_sp (s : State) (e : Config.Fx94Effect) : (s.applyFx94 e).sp = s.sp := by rw [State.applyFx94_eq]
@[simp] theorem State.applyFx94_dt (s : State) (e : Config.Fx94Effect) : (s.applyFx94 e).dt = s.dt := by rw [State.applyFx94_eq]
@[simp] theorem State.applyFx94_st (s : State) (e : Config.Fx94Effect) : (s.applyFx94 e).st = s.st := by rw [State.applyFx94_eq]
@[simp] theorem State.applyFx94_fb (s : State) (e : Config.Fx94Effect) : (s.applyFx94 e).fb = s.fb := by rw [State.applyFx94_eq]
@[simp] theorem State.applyFx94_redraw (s : State) (e : Config.Fx94Effect) : (s.applyFx94 e).redraw = s.redraw := by rw [State.applyFx94_eq]
@[simp] theorem State.applyFx94_sound (s : State) (e : Config.Fx94Effect) : (s.applyFx94 e).sound = s.sound := by rw [State.applyFx94_eq]
@[simp] theorem State.applyFx94_keys (s : State) (e : Config.Fx94Effect) : (s.applyFx94 e).keys = s.keys := by rw [State.applyFx94_eq]
@[simp] theorem State.applyFx94_faultMark (s : State) (e : Config.Fx94Effect) : (s.applyFx94 e).faultMark = s.faultMark := by rw [State.applyFx94_eq]
@[simp] theorem State.applyFx94_cfg (s : State) (e : Config.Fx94Effect) : (s.applyFx94 e).cfg = s.cfg := by rw [State.applyFx94_eq]
@[simp] theorem State.applyFx94_rndIn (s : State) (e : Config.Fx94Effect) : (s.applyFx94 e).rndIn = s.rndIn := by rw [State.applyFx94_eq]
@[simp] theorem State.applyFx94_drawIndex (s : State) (e : Config.Fx94Effect) : (s.applyFx94 e).drawIndex = s.drawIndex := by rw [State.applyFx94_eq]

/-- The V registers an effect does not write are as before. -/
theorem State.reg_applyFx94_of_not_mem (s : State) (e : Config.Fx94Effect) (r : RegIx) (h : ∀ w ∈ e.vWrites, w.1 ≠ r) :
    (s.applyFx94 e).reg r = s.reg r := by
  have hv : (s.applyFx94 e).v = (e.vWrites.foldl (fun t w => t.setReg w.1 w.2) s).v := by
    unfold State.applyFx94
    rw [foldl_setReg_eq]
    cases e.iWrite <;> rfl
  rw [State.reg_congr hv]
  exact reg_foldl_setReg_of_not_mem e.vWrites s r h

theorem State.applyFx94_mem (s : State) (e : Config.Fx94Effect) :
    (s.applyFx94 e).mem = e.memWrites.foldl (fun m c => m.writeByte c.1 c.2) s.mem := by
  unfold State.applyFx94
  rw [foldl_setReg_eq]
  cases e.iWrite <;> rfl

theorem State.applyFx94_i (s : State) (e : Config.Fx94Effect) :
    (s.applyFx94 e).i = e.iWrite.elim s.i fun n => BitVec.ofNat 16 (n % 2 ^ s.cfg.iBits.width) := by
  unfold State.applyFx94
  rw [foldl_setReg_eq]
  cases e.iWrite <;> rfl

theorem Memory.wf_foldl_writeByte (ws : List Host.Cell) (m : Memory) (h : m.wf = true) (hw : ∀ c ∈ ws, c.1 < 4096) :
    Memory.wf (ws.foldl (fun m c => Memory.writeByte m c.1 c.2) m) = true := by
  induction ws generalizing m with
  | nil => exact h
  | cons c rest ih =>
    exact ih _ (Memory.wf_writeByte c.2 h (hw c (by simp))) fun d hd => hw d (by simp [hd])

theorem Memory.byteAt_foldl_writeByte_of_not_mem (ws : List Host.Cell) (m : Memory) (a : Nat)
    (h : a ∉ ws.map (·.1)) : Memory.byteAt (ws.foldl (fun m c => Memory.writeByte m c.1 c.2) m) a = m.byteAt a := by
  induction ws generalizing m with
  | nil => rfl
  | cons c rest ih =>
    simp only [List.map_cons, List.mem_cons, not_or] at h
    rw [List.foldl_cons, ih _ h.2, Memory.byteAt_writeByte_of_ne _ _ h.1]

/-! ### The program load -/

theorem State.loadProgram_of_le {s : State} {bytes : List Byte} (h : bytes.length ≤ 3584) :
    s.loadProgram bytes = some { s with mem := s.mem.writeBytes 0x200 bytes } := by
  rw [State.loadProgram, Config.progMax, if_neg (Nat.not_lt.2 h)]; rfl

theorem State.loadProgram_of_gt {s : State} {bytes : List Byte} (h : 3584 < bytes.length) :
    s.loadProgram bytes = none := by
  rw [State.loadProgram, Config.progMax, if_pos h]

/-! ### Around the instruction -/

theorem State.fetchWord_of_le {s : State} (h : s.pc.toNat ≤ 0xFFE) :
    s.fetchWord = .ok (wordOfBytes (s.mem.byteAt s.pc.toNat) (s.mem.byteAt (s.pc.toNat + 1))) := by
  rw [State.fetchWord, outOfBounds_eq_none.2 (.inr (by omega))]

theorem State.fetchWord_of_gt {s : State} (h : 0xFFE < s.pc.toNat) :
    s.fetchWord = .error (.memoryOutOfBounds (max s.pc.toNat 4096)) := by
  rw [State.fetchWord, outOfBounds_eq_some.2 ⟨⟨by omega, by omega⟩, rfl⟩]

/-- A successful fetch reads inside memory and decodes its word. -/
theorem State.fetchInstr_ok {s : State} {i : Instr} (h : s.fetchInstr = .ok i) :
    s.pc.toNat ≤ 0xFFE ∧
      decode (wordOfBytes (s.mem.byteAt s.pc.toNat) (s.mem.byteAt (s.pc.toNat + 1))) = .ok i := by
  by_cases hp : s.pc.toNat ≤ 0xFFE
  · refine ⟨hp, ?_⟩
    rw [State.fetchInstr, State.fetchWord_of_le hp] at h
    dsimp only at h
    split at h
    · cases h
    · rename_i j hj
      cases h
      exact hj
  · rw [State.fetchInstr, State.fetchWord_of_gt (by omega)] at h
    cases h

theorem finishStep_next {r : Result} {t : State} (h : finishStep r = .next t) : ∃ u, r = .next u ∧ t = u.endStep := by
  cases r with
  | next u => exact ⟨u, rfl, by simpa [finishStep] using h.symm⟩
  | fault f => cases h
  | refused q => cases h

/-- What a successful step is: an instruction inside memory, executed, then the end of the step. -/
theorem step_next {s t : State} (h : step s = .next t) :
    ∃ i u, s.fetchInstr = .ok i ∧ exec i s = .next u ∧ t = u.endStep := by
  unfold step at h
  split at h
  · cases h
  · obtain ⟨u, hu, ht⟩ := finishStep_next h
    exact ⟨_, u, ‹_›, hu, ht⟩

theorem finishStep_fault {r : Result} {f : Fault} (h : finishStep r = .fault f) : r = .fault f := by
  cases r with
  | next u => cases h
  | fault g => simpa [finishStep] using h
  | refused q => cases h

/-- What a failed step is: a failed fetch or decode, or an instruction's own failure. -/
theorem step_fault {s : State} {f : Fault} (h : step s = .fault f) :
    s.fetchInstr = .error f ∨ ∃ i, s.fetchInstr = .ok i ∧ exec i s = .fault f := by
  unfold step at h
  split at h
  · left; rename_i g hg; cases h; exact hg
  · exact .inr ⟨_, ‹_›, finishStep_fault h⟩

@[simp] theorem toNat_countDown (t : Byte) : (countDown t).toNat = t.toNat - 1 := by
  unfold countDown
  split
  · simp_all
  · have : t.toNat ≠ 0 := fun e => ‹¬ t = 0› (BitVec.eq_of_toNat_eq e)
    rw [BitVec.toNat_sub]
    have := t.isLt
    simp only [show (1 : Byte).toNat = 1 from rfl]
    omega

/-- The step transaction, from the step with its random byte presented (R338): Ok and the next state, or the record of the
failure and the state as it was with the fault mark set. -/
theorem transact_step_of_next {s t : State} {rnd : Byte} (h : step (s.presentRnd rnd) = .next t) :
    transact (.step rnd) s = (t, .ok) := by simp only [transact, h]

theorem transact_step_of_fault {s : State} {rnd : Byte} {f : Fault} (h : step (s.presentRnd rnd) = .fault f) :
    transact (.step rnd) s = ({ s with faultMark := true }, .failed (failureRecord s f)) := by simp only [transact, h]

/-- What the record of a failure shows (R320, R338). -/
theorem recordShows_failureRecord (s : State) (f : Fault) : RecordShows (failureRecord s f) f := by
  cases f with
  | unmodelled r => cases r <;> simp [RecordShows, failureRecord, faultCode, faultInfo, reasonNumber]
  | _ => simp [RecordShows, failureRecord, faultCode, faultInfo]

end Sys2Proof.Machine
end

