-- ==== Sys2Proof/Laws/PerInstr.lean ====
section
/-! SUPPORT. The per-instruction law: every instruction's word is well formed, outside the unsupported space of
30_encoding R96. -/

namespace Sys2Proof.Laws

/-- The word of i is a supported word. -/
def EncodesSupported.Statement (i : Instr) : Prop := supportedWord (encode i) = true

/-- A word of families 1–4, 6, 7, A–D is supported. -/
theorem supported_of_op {w : Word} (h : w.toNat / 4096 ∈ [1, 2, 3, 4, 6, 7, 10, 11, 12, 13]) :
    supportedWord w = true := by
  unfold supportedWord
  simp only [List.mem_cons, List.not_mem_nil, or_false] at h
  repeat' split
  all_goals first | rfl | omega

theorem supported_of_op59 {w : Word} (h : w.toNat / 4096 = 5 ∨ w.toNat / 4096 = 9) (hn : w.toNat % 16 < 4) :
    supportedWord w = true := by
  unfold supportedWord supportedFamily59
  repeat' split
  all_goals first | rfl | omega | exact decide_eq_true hn

theorem supported_of_op8 {w : Word} {n : Nat} (h : w.toNat / 4096 = 8) (hn : w.toNat % 16 = n)
    (hs : ([0x8, 0x9, 0xA, 0xB, 0xC, 0xD, 0xF].contains n) = false) : supportedWord w = true := by
  unfold supportedWord supportedFamily8
  repeat' split
  all_goals first | rfl | omega | simp only [hn, hs, Bool.not_false]

theorem supported_of_opE {w : Word} {n : Nat} (h : w.toNat / 4096 = 14) (hn : w.toNat % 256 = n)
    (hs : ([0x9E, 0xA1].contains n) = true) : supportedWord w = true := by
  unfold supportedWord supportedFamilyE
  repeat' split
  all_goals first | rfl | omega | simp only [hn, hs]

theorem supported_of_opF {w : Word} {n : Nat} (h : w.toNat / 4096 = 15) (hn : w.toNat % 256 = n)
    (hs : ([0x07, 0x0A, 0x15, 0x18, 0x1E, 0x29, 0x33, 0x55, 0x65, 0x94].contains n) = true) :
    supportedWord w = true := by
  unfold supportedWord supportedFamilyF
  repeat' split
  all_goals first | rfl | omega | simp only [hn, hs]

theorem EncodesSupported.cls : EncodesSupported.Statement (.cls) := rfl

theorem EncodesSupported.ret : EncodesSupported.Statement (.ret) := rfl

theorem EncodesSupported.jp (nnn : BitVec 12) : EncodesSupported.Statement (.jp nnn) := by
  have := toNat_wordA 0x1#4 nnn
  simp only [BitVec.toNat_ofNat] at this
  exact supported_of_op (by simp only [List.mem_cons, encode]; omega)

theorem EncodesSupported.call (nnn : BitVec 12) : EncodesSupported.Statement (.call nnn) := by
  have := toNat_wordA 0x2#4 nnn
  simp only [BitVec.toNat_ofNat] at this
  exact supported_of_op (by simp only [List.mem_cons, encode]; omega)

theorem EncodesSupported.seImm (x : RegIx) (nn : Byte) : EncodesSupported.Statement (.seImm x nn) := by
  have := toNat_wordXB 0x3#4 x nn
  simp only [BitVec.toNat_ofNat] at this
  exact supported_of_op (by simp only [List.mem_cons, encode]; omega)

theorem EncodesSupported.sneImm (x : RegIx) (nn : Byte) : EncodesSupported.Statement (.sneImm x nn) := by
  have := toNat_wordXB 0x4#4 x nn
  simp only [BitVec.toNat_ofNat] at this
  exact supported_of_op (by simp only [List.mem_cons, encode]; omega)

theorem EncodesSupported.seReg (x y : RegIx) : EncodesSupported.Statement (.seReg x y) := by
  have := toNat_wordXY 0x5#4 x y 0x0#4
  simp only [BitVec.toNat_ofNat] at this
  exact supported_of_op59 (by dsimp only [encode]; omega) (by dsimp only [encode]; omega)

theorem EncodesSupported.skr1 (x y : RegIx) : EncodesSupported.Statement (.skr1 x y) := by
  have := toNat_wordXY 0x5#4 x y 0x1#4
  simp only [BitVec.toNat_ofNat] at this
  exact supported_of_op59 (by dsimp only [encode]; omega) (by dsimp only [encode]; omega)

theorem EncodesSupported.skr2 (x y : RegIx) : EncodesSupported.Statement (.skr2 x y) := by
  have := toNat_wordXY 0x5#4 x y 0x2#4
  simp only [BitVec.toNat_ofNat] at this
  exact supported_of_op59 (by dsimp only [encode]; omega) (by dsimp only [encode]; omega)

theorem EncodesSupported.skr3 (x y : RegIx) : EncodesSupported.Statement (.skr3 x y) := by
  have := toNat_wordXY 0x5#4 x y 0x3#4
  simp only [BitVec.toNat_ofNat] at this
  exact supported_of_op59 (by dsimp only [encode]; omega) (by dsimp only [encode]; omega)

theorem EncodesSupported.ldImm (x : RegIx) (nn : Byte) : EncodesSupported.Statement (.ldImm x nn) := by
  have := toNat_wordXB 0x6#4 x nn
  simp only [BitVec.toNat_ofNat] at this
  exact supported_of_op (by simp only [List.mem_cons, encode]; omega)

theorem EncodesSupported.addImm (x : RegIx) (nn : Byte) : EncodesSupported.Statement (.addImm x nn) := by
  have := toNat_wordXB 0x7#4 x nn
  simp only [BitVec.toNat_ofNat] at this
  exact supported_of_op (by simp only [List.mem_cons, encode]; omega)

theorem EncodesSupported.ldReg (x y : RegIx) : EncodesSupported.Statement (.ldReg x y) := by
  have := toNat_wordXY 0x8#4 x y 0x0#4
  simp only [BitVec.toNat_ofNat] at this
  exact supported_of_op8 (n := 0x0) (by dsimp only [encode]; omega) (by dsimp only [encode]; omega) rfl

theorem EncodesSupported.orReg (x y : RegIx) : EncodesSupported.Statement (.orReg x y) := by
  have := toNat_wordXY 0x8#4 x y 0x1#4
  simp only [BitVec.toNat_ofNat] at this
  exact supported_of_op8 (n := 0x1) (by dsimp only [encode]; omega) (by dsimp only [encode]; omega) rfl

theorem EncodesSupported.andReg (x y : RegIx) : EncodesSupported.Statement (.andReg x y) := by
  have := toNat_wordXY 0x8#4 x y 0x2#4
  simp only [BitVec.toNat_ofNat] at this
  exact supported_of_op8 (n := 0x2) (by dsimp only [encode]; omega) (by dsimp only [encode]; omega) rfl

theorem EncodesSupported.xorReg (x y : RegIx) : EncodesSupported.Statement (.xorReg x y) := by
  have := toNat_wordXY 0x8#4 x y 0x3#4
  simp only [BitVec.toNat_ofNat] at this
  exact supported_of_op8 (n := 0x3) (by dsimp only [encode]; omega) (by dsimp only [encode]; omega) rfl

theorem EncodesSupported.addReg (x y : RegIx) : EncodesSupported.Statement (.addReg x y) := by
  have := toNat_wordXY 0x8#4 x y 0x4#4
  simp only [BitVec.toNat_ofNat] at this
  exact supported_of_op8 (n := 0x4) (by dsimp only [encode]; omega) (by dsimp only [encode]; omega) rfl

theorem EncodesSupported.sub (x y : RegIx) : EncodesSupported.Statement (.sub x y) := by
  have := toNat_wordXY 0x8#4 x y 0x5#4
  simp only [BitVec.toNat_ofNat] at this
  exact supported_of_op8 (n := 0x5) (by dsimp only [encode]; omega) (by dsimp only [encode]; omega) rfl

theorem EncodesSupported.shr (x y : RegIx) : EncodesSupported.Statement (.shr x y) := by
  have := toNat_wordXY 0x8#4 x y 0x6#4
  simp only [BitVec.toNat_ofNat] at this
  exact supported_of_op8 (n := 0x6) (by dsimp only [encode]; omega) (by dsimp only [encode]; omega) rfl

theorem EncodesSupported.subn (x y : RegIx) : EncodesSupported.Statement (.subn x y) := by
  have := toNat_wordXY 0x8#4 x y 0x7#4
  simp only [BitVec.toNat_ofNat] at this
  exact supported_of_op8 (n := 0x7) (by dsimp only [encode]; omega) (by dsimp only [encode]; omega) rfl

theorem EncodesSupported.shl (x y : RegIx) : EncodesSupported.Statement (.shl x y) := by
  have := toNat_wordXY 0x8#4 x y 0xE#4
  simp only [BitVec.toNat_ofNat] at this
  exact supported_of_op8 (n := 0xE) (by dsimp only [encode]; omega) (by dsimp only [encode]; omega) rfl

theorem EncodesSupported.sneReg (x y : RegIx) : EncodesSupported.Statement (.sneReg x y) := by
  have := toNat_wordXY 0x9#4 x y 0x0#4
  simp only [BitVec.toNat_ofNat] at this
  exact supported_of_op59 (by dsimp only [encode]; omega) (by dsimp only [encode]; omega)

theorem EncodesSupported.mul (x y : RegIx) : EncodesSupported.Statement (.mul x y) := by
  have := toNat_wordXY 0x9#4 x y 0x1#4
  simp only [BitVec.toNat_ofNat] at this
  exact supported_of_op59 (by dsimp only [encode]; omega) (by dsimp only [encode]; omega)

theorem EncodesSupported.div (x y : RegIx) : EncodesSupported.Statement (.div x y) := by
  have := toNat_wordXY 0x9#4 x y 0x2#4
  simp only [BitVec.toNat_ofNat] at this
  exact supported_of_op59 (by dsimp only [encode]; omega) (by dsimp only [encode]; omega)

theorem EncodesSupported.bcd16 (x y : RegIx) : EncodesSupported.Statement (.bcd16 x y) := by
  have := toNat_wordXY 0x9#4 x y 0x3#4
  simp only [BitVec.toNat_ofNat] at this
  exact supported_of_op59 (by dsimp only [encode]; omega) (by dsimp only [encode]; omega)

theorem EncodesSupported.ldI (nnn : BitVec 12) : EncodesSupported.Statement (.ldI nnn) := by
  have := toNat_wordA 0xA#4 nnn
  simp only [BitVec.toNat_ofNat] at this
  exact supported_of_op (by simp only [List.mem_cons, encode]; omega)

theorem EncodesSupported.jpV0 (nnn : BitVec 12) : EncodesSupported.Statement (.jpV0 nnn) := by
  have := toNat_wordA 0xB#4 nnn
  simp only [BitVec.toNat_ofNat] at this
  exact supported_of_op (by simp only [List.mem_cons, encode]; omega)

theorem EncodesSupported.rnd (x : RegIx) (nn : Byte) : EncodesSupported.Statement (.rnd x nn) := by
  have := toNat_wordXB 0xC#4 x nn
  simp only [BitVec.toNat_ofNat] at this
  exact supported_of_op (by simp only [List.mem_cons, encode]; omega)

theorem EncodesSupported.drw (x y : RegIx) (n : BitVec 4) : EncodesSupported.Statement (.drw x y n) := by
  have := toNat_wordXY 0xD#4 x y n
  simp only [BitVec.toNat_ofNat] at this
  exact supported_of_op (by simp only [List.mem_cons, encode]; omega)

theorem EncodesSupported.skp (x : RegIx) : EncodesSupported.Statement (.skp x) := by
  have := toNat_wordXB 0xE#4 x 0x9E#8
  simp only [BitVec.toNat_ofNat] at this
  exact supported_of_opE (n := 0x9E) (by dsimp only [encode]; omega) (by dsimp only [encode]; omega) rfl

theorem EncodesSupported.sknp (x : RegIx) : EncodesSupported.Statement (.sknp x) := by
  have := toNat_wordXB 0xE#4 x 0xA1#8
  simp only [BitVec.toNat_ofNat] at this
  exact supported_of_opE (n := 0xA1) (by dsimp only [encode]; omega) (by dsimp only [encode]; omega) rfl

theorem EncodesSupported.ldVxDt (x : RegIx) : EncodesSupported.Statement (.ldVxDt x) := by
  have := toNat_wordXB 0xF#4 x 0x07#8
  simp only [BitVec.toNat_ofNat] at this
  exact supported_of_opF (n := 0x07) (by dsimp only [encode]; omega) (by dsimp only [encode]; omega) rfl

theorem EncodesSupported.ldVxK (x : RegIx) : EncodesSupported.Statement (.ldVxK x) := by
  have := toNat_wordXB 0xF#4 x 0x0A#8
  simp only [BitVec.toNat_ofNat] at this
  exact supported_of_opF (n := 0x0A) (by dsimp only [encode]; omega) (by dsimp only [encode]; omega) rfl

theorem EncodesSupported.ldDtVx (x : RegIx) : EncodesSupported.Statement (.ldDtVx x) := by
  have := toNat_wordXB 0xF#4 x 0x15#8
  simp only [BitVec.toNat_ofNat] at this
  exact supported_of_opF (n := 0x15) (by dsimp only [encode]; omega) (by dsimp only [encode]; omega) rfl

theorem EncodesSupported.ldStVx (x : RegIx) : EncodesSupported.Statement (.ldStVx x) := by
  have := toNat_wordXB 0xF#4 x 0x18#8
  simp only [BitVec.toNat_ofNat] at this
  exact supported_of_opF (n := 0x18) (by dsimp only [encode]; omega) (by dsimp only [encode]; omega) rfl

theorem EncodesSupported.addI (x : RegIx) : EncodesSupported.Statement (.addI x) := by
  have := toNat_wordXB 0xF#4 x 0x1E#8
  simp only [BitVec.toNat_ofNat] at this
  exact supported_of_opF (n := 0x1E) (by dsimp only [encode]; omega) (by dsimp only [encode]; omega) rfl

theorem EncodesSupported.ldF (x : RegIx) : EncodesSupported.Statement (.ldF x) := by
  have := toNat_wordXB 0xF#4 x 0x29#8
  simp only [BitVec.toNat_ofNat] at this
  exact supported_of_opF (n := 0x29) (by dsimp only [encode]; omega) (by dsimp only [encode]; omega) rfl

theorem EncodesSupported.ldB (x : RegIx) : EncodesSupported.Statement (.ldB x) := by
  have := toNat_wordXB 0xF#4 x 0x33#8
  simp only [BitVec.toNat_ofNat] at this
  exact supported_of_opF (n := 0x33) (by dsimp only [encode]; omega) (by dsimp only [encode]; omega) rfl

theorem EncodesSupported.ldMemVx (x : RegIx) : EncodesSupported.Statement (.ldMemVx x) := by
  have := toNat_wordXB 0xF#4 x 0x55#8
  simp only [BitVec.toNat_ofNat] at this
  exact supported_of_opF (n := 0x55) (by dsimp only [encode]; omega) (by dsimp only [encode]; omega) rfl

theorem EncodesSupported.ldVxMem (x : RegIx) : EncodesSupported.Statement (.ldVxMem x) := by
  have := toNat_wordXB 0xF#4 x 0x65#8
  simp only [BitVec.toNat_ofNat] at this
  exact supported_of_opF (n := 0x65) (by dsimp only [encode]; omega) (by dsimp only [encode]; omega) rfl

theorem EncodesSupported.glyph3 (x : RegIx) : EncodesSupported.Statement (.glyph3 x) := by
  have := toNat_wordXB 0xF#4 x 0x94#8
  simp only [BitVec.toNat_ofNat] at this
  exact supported_of_opF (n := 0x94) (by dsimp only [encode]; omega) (by dsimp only [encode]; omega) rfl

end Sys2Proof.Laws
end

