-- ==== Sys2Proof/Tests/Slice0.lean ====
section
/-! SUPPORT. Tests of the model: what the decoder refuses, a word of every constructor written out bit by bit from the spec's
encodings, one-step vectors of 95_test_vectors (their T numbers stand in the comments), and a named witness for the
hypotheses of every statement. -/

namespace Sys2Proof.Machine.Tests

/-! ## Helpers -/

/-- A step or meaning answered a next state, and it has the property. -/
def okAnd (r : Result) (p : State → Bool) : Bool :=
  match r with
  | .next t => p t
  | .fault _ => false
  | .refused _ => false

/-- A step or meaning answered this failure. -/
def failsWith (r : Result) (f : Fault) : Bool :=
  match r with
  | .next _ => false
  | .fault g => g == f
  | .refused _ => false

theorem next_of_okAnd {r : Result} {p : State → Bool} (h : okAnd r p = true) : ∃ t, r = .next t ∧ p t = true := by
  cases r with
  | next t => exact ⟨t, rfl, h⟩
  | fault f => simp [okAnd] at h
  | refused q => simp [okAnd] at h

theorem fault_of_failsWith {r : Result} {f : Fault} (h : failsWith r f = true) : r = .fault f := by
  cases r with
  | next t => simp [failsWith] at h
  | fault g => simpa [failsWith] using h
  | refused q => simp [failsWith] at h

/-- The state after reset with these registers. -/
def regs (l : List (RegIx × Byte)) : State := l.foldl (fun s p => s.setReg p.1 p.2) State.reset

/-- With I, and bytes stored from it. -/
def withI (s : State) (i : Word) (bs : List Byte) : State := { s with i := i, mem := s.mem.writeBytes i.toNat bs }

/-- With one key pressed. -/
def press (s : State) (k : Fin 16) : State := { s with keys := s.keys.set k.val true }

/-- With another configuration. -/
def withCfg (s : State) (f : Config.Params → Config.Params) : State := { s with cfg := f s.cfg }

/-- With a random byte presented. -/
def withRnd (s : State) (b : Byte) : State := { s with rndIn := some b }

/-- With a call stack of this depth, every entry v. -/
def withStack (s : State) (sp : Fin 17) (v : Word) : State := { s with sp := sp, stack := Vector.replicate 16 v }

/-- One step with the word stored at pc. -/
def run1 (s : State) (w : Nat) : Result := step (s.withFetchWord 16 w)

/-- The framebuffer whose lit pixels are these. -/
def lit (l : List (Nat × Nat)) : BitVec 2048 := l.foldl (fun f p => f ||| BitVec.ofNat 2048 (2 ^ (p.2 * 64 + p.1))) 0

/-! ## What is no instruction: one ill-formed word for each check of WellFormed.lean (30_encoding R96) -/

theorem test_unsupported_family0 :
    supportedWord 0x0000 = false ∧ supportedWord 0x0123 = false ∧ supportedWord 0x00E1 = false ∧
    decode 0x0000 = .error (.unsupportedOpcode 0x0000) ∧ decode 0x00E1 = .error (.unsupportedOpcode 0x00E1) := by decide

theorem test_unsupported_family5 :
    supportedWord 0x5124 = false ∧ decode 0x5124 = .error (.unsupportedOpcode 0x5124) := by decide

theorem test_unsupported_family8 :
    supportedWord 0x8008 = false ∧ supportedWord 0x800D = false ∧ supportedWord 0x800F = false ∧
    decode 0x8008 = .error (.unsupportedOpcode 0x8008) ∧ decode 0x800F = .error (.unsupportedOpcode 0x800F) := by decide

theorem test_unsupported_family9 :
    supportedWord 0x9004 = false ∧ decode 0x9004 = .error (.unsupportedOpcode 0x9004) := by decide

theorem test_unsupported_familyE :
    supportedWord 0xE000 = false ∧ supportedWord 0xE09F = false ∧
    decode 0xE000 = .error (.unsupportedOpcode 0xE000) := by decide

theorem test_unsupported_familyF :
    supportedWord 0xF000 = false ∧ supportedWord 0xFFFF = false ∧
    decode 0xF000 = .error (.unsupportedOpcode 0xF000) ∧ decode 0xFFFF = .error (.unsupportedOpcode 0xFFFF) := by decide

theorem test_truncated : decodeBytes [0x60] = .error (.truncated [0x60]) := by decide

/-! ## A word of every constructor, bit by bit from the encodings of the rules -/

theorem test_decode_control :
    decode 0b0000000011100000 = .ok .cls ∧
    decode 0b0000000011101110 = .ok .ret ∧
    decode 0b0001001000110100 = .ok (.jp 0x234) ∧
    decode 0b0010010000000001 = .ok (.call 0x401) ∧
    decode 0b1011001100000101 = .ok (.jpV0 0x305) := by decide

theorem test_decode_skips :
    decode 0b0011000101000010 = .ok (.seImm 1 0x42) ∧
    decode 0b0100000101000010 = .ok (.sneImm 1 0x42) ∧
    decode 0b0101000100100000 = .ok (.seReg 1 2) ∧
    decode 0b0101000100100001 = .ok (.skr1 1 2) ∧
    decode 0b0101000100100010 = .ok (.skr2 1 2) ∧
    decode 0b0101000100100011 = .ok (.skr3 1 2) ∧
    decode 0b1001000100100000 = .ok (.sneReg 1 2) := by decide

theorem test_decode_arith :
    decode 0b0110101001000010 = .ok (.ldImm 0xA 0x42) ∧
    decode 0b0111001100000010 = .ok (.addImm 3 2) ∧
    decode 0b1000001100010000 = .ok (.ldReg 3 1) ∧
    decode 0b1000001100010001 = .ok (.orReg 3 1) ∧
    decode 0b1000001100010010 = .ok (.andReg 3 1) ∧
    decode 0b1000001100010011 = .ok (.xorReg 3 1) ∧
    decode 0b1000001100010100 = .ok (.addReg 3 1) ∧
    decode 0b1000001100010101 = .ok (.sub 3 1) ∧
    decode 0b1000001100010110 = .ok (.shr 3 1) ∧
    decode 0b1000001100010111 = .ok (.subn 3 1) ∧
    decode 0b1000001100011110 = .ok (.shl 3 1) ∧
    decode 0b1100001100001111 = .ok (.rnd 3 0x0F) := by decide

theorem test_decode_extended :
    decode 0b1001000100100001 = .ok (.mul 1 2) ∧
    decode 0b1001000100100010 = .ok (.div 1 2) ∧
    decode 0b1001000100100011 = .ok (.bcd16 1 2) ∧
    decode 0b1111000110010100 = .ok (.glyph3 1) := by decide

theorem test_decode_display_keypad :
    decode 0b1101000100100011 = .ok (.drw 1 2 3) ∧
    decode 0b1110010110011110 = .ok (.skp 5) ∧
    decode 0b1110010110100001 = .ok (.sknp 5) ∧
    decode 0b1111001000001010 = .ok (.ldVxK 2) := by decide

theorem test_decode_memory_timers :
    decode 0b1010001100000001 = .ok (.ldI 0x301) ∧
    decode 0b1111001000000111 = .ok (.ldVxDt 2) ∧
    decode 0b1111001000010101 = .ok (.ldDtVx 2) ∧
    decode 0b1111001000011000 = .ok (.ldStVx 2) ∧
    decode 0b1111001000011110 = .ok (.addI 2) ∧
    decode 0b1111001000101001 = .ok (.ldF 2) ∧
    decode 0b1111001000110011 = .ok (.ldB 2) ∧
    decode 0b1111001001010101 = .ok (.ldMemVx 2) ∧
    decode 0b1111001001100101 = .ok (.ldVxMem 2) := by decide

/-- Words lie big-endian (20_memory R63), and the table's word reaches the decoder. -/
theorem test_big_endian :
    encodeBytes (.call 0x401) = [0x24, 0x01] ∧ decodeTableWord 16 0x2401 = some (.call 0x401) ∧
    decodeTableWord 16 0x0000 = none := by decide

/-! ## Arithmetic and logic -/

/-- T1. -/
theorem test_ldImm : okAnd (run1 State.reset 0x6A42) (fun t => t.reg 0xA == 0x42 && t.pc == 0x202) = true := by
  decide

/-- T2. -/
theorem test_addImm_wraps : okAnd (run1 (regs [(3, 0xFF), (vf, 7)]) 0x7302)
    (fun t => t.reg 3 == 1 && t.reg vf == 7 && t.pc == 0x202) = true := by decide

/-- T3. -/
theorem test_ldReg : okAnd (run1 (regs [(1, 0x55)]) 0x8010) (fun t => t.reg 0 == 0x55 && t.reg 1 == 0x55) = true := by
  decide

/-- T4. -/
theorem test_orReg : okAnd (run1 (regs [(0, 0x0F), (1, 0xF0), (vf, 9)]) 0x8011)
    (fun t => t.reg 0 == 0xFF && t.reg vf == 9) = true := by decide

/-- T5. -/
theorem test_andReg : okAnd (run1 (regs [(0, 0x3C), (1, 0x0F), (vf, 9)]) 0x8012)
    (fun t => t.reg 0 == 0x0C && t.reg vf == 9) = true := by decide

/-- T6. -/
theorem test_xorReg : okAnd (run1 (regs [(0, 0xFF), (1, 0x0F), (vf, 9)]) 0x8013)
    (fun t => t.reg 0 == 0xF0 && t.reg vf == 9) = true := by decide

/-- T7. -/
theorem test_addReg_carry : okAnd (run1 (regs [(0, 0xFF), (1, 1)]) 0x8014)
    (fun t => t.reg 0 == 0 && t.reg vf == 1) = true := by decide

/-- T9. -/
theorem test_addReg_flag_last : okAnd (run1 (regs [(vf, 0xFF), (1, 1)]) 0x8F14) (fun t => t.reg vf == 1) = true := by
  decide

/-- T10. -/
theorem test_sub_borrow : okAnd (run1 (regs [(0, 5), (1, 0xA)]) 0x8015)
    (fun t => t.reg 0 == 0xFB && t.reg vf == 0) = true := by decide

/-- T12. -/
theorem test_sub_equal : okAnd (run1 (regs [(0, 7), (1, 7), (vf, 1)]) 0x8015)
    (fun t => t.reg 0 == 0 && t.reg vf == 0) = true := by decide

/-- T13. -/
theorem test_shr : okAnd (run1 (regs [(2, 5)]) 0x8206) (fun t => t.reg 2 == 2 && t.reg vf == 1) = true := by
  decide

/-- T14. -/
theorem test_shr_vf : okAnd (run1 (regs [(vf, 3)]) 0x8F06) (fun t => t.reg vf == 1) = true := by decide

/-- T15. -/
theorem test_subn : okAnd (run1 (regs [(0, 5), (1, 0xA)]) 0x8017)
    (fun t => t.reg 0 == 5 && t.reg vf == 1) = true := by decide

/-- T16. -/
theorem test_subn_equal : okAnd (run1 (regs [(0, 9), (1, 9), (vf, 1)]) 0x8017)
    (fun t => t.reg 0 == 0 && t.reg vf == 0) = true := by decide

/-- T17. -/
theorem test_shl_masked : okAnd (run1 (regs [(4, 0x81)]) 0x840E)
    (fun t => t.reg 4 == 2 && t.reg vf == 0x80) = true := by decide

/-- T19a. -/
theorem test_shl_normalised :
    okAnd (run1 (withCfg (regs [(4, 0x81)]) fun c => { c with shlFlagNormalised := true }) 0x840E)
      (fun t => t.reg 4 == 2 && t.reg vf == 1) = true := by decide

/-- T20. -/
theorem test_rnd : okAnd (run1 (withRnd State.reset 0xA7) 0xC30F) (fun t => t.reg 3 == 7 && t.rndIn == none) = true := by
  decide

/-- T21. -/
theorem test_rnd_mask0 : okAnd (run1 (withRnd (regs [(3, 0x11)]) 0xFF) 0xC300) (fun t => t.reg 3 == 0) = true := by
  decide

/-- T22, T23. -/
theorem test_seImm : okAnd (run1 (regs [(0, 0x42)]) 0x3042) (fun t => t.pc == 0x204) = true ∧
    okAnd (run1 (regs [(0, 0x41)]) 0x3042) (fun t => t.pc == 0x202) = true := by decide

/-- T29: a skip past memory does not fail. -/
theorem test_seImm_top : okAnd (run1 { State.reset with pc := 0xFFC } 0x3000) (fun t => t.pc == 0x1000) = true := by
  decide

/-- T24, T25. -/
theorem test_sneImm : okAnd (run1 (regs [(0, 0x41)]) 0x4042) (fun t => t.pc == 0x204) = true ∧
    okAnd (run1 (regs [(0, 0x42)]) 0x4042) (fun t => t.pc == 0x202) = true := by decide

/-- T26. -/
theorem test_seReg : okAnd (run1 (regs [(0, 9), (1, 9)]) 0x5010) (fun t => t.pc == 0x204) = true := by decide

/-- T27, T28. -/
theorem test_sneReg : okAnd (run1 (regs [(0, 9), (1, 9)]) 0x9010) (fun t => t.pc == 0x202) = true ∧
    okAnd (run1 (regs [(0, 9), (1, 8)]) 0x9010) (fun t => t.pc == 0x204) = true := by decide

/-! ## Control flow -/

/-- T31. -/
theorem test_jp : okAnd (run1 State.reset 0x1234) (fun t => t.pc == 0x234) = true := by decide

/-- T34. -/
theorem test_call : okAnd (run1 State.reset 0x2400)
    (fun t => t.pc == 0x400 && t.sp == 1 && t.stack[0] == 0x202) = true := by decide

/-- T35. -/
theorem test_call_overflow : failsWith (run1 (withStack State.reset 16 0x202) 0x2400) .stackOverflow = true := by
  decide

/-- T36. -/
theorem test_ret : okAnd (run1 (withStack State.reset 1 0x206) 0x00EE)
    (fun t => t.pc == 0x206 && t.sp == 0) = true := by decide

/-- T37. -/
theorem test_ret_underflow : failsWith (run1 State.reset 0x00EE) .stackUnderflow = true := by decide

/-- T38. -/
theorem test_jpV0 : okAnd (run1 (regs [(0, 0x10)]) 0xB300) (fun t => t.pc == 0x310) = true := by decide

/-- T39. -/
theorem test_jpV0_unmasked : okAnd (run1 (regs [(0, 0xFF)]) 0xBFFF) (fun t => t.pc == 0x10FE) = true := by
  decide

/-! ## Extended instructions -/

/-- A relation for the tests: 5XY1 holds at (3, 4), 5XY2 at (4, 3), 5XY3 at (3, 3). -/
def relCfg (s : State) : State := withCfg s fun c => { c with relSkipCond := some ⟨[(3, 4)], [(4, 3)], [(3, 3)]⟩ }

/-- T41, and a supplied relation (R201). -/
theorem test_skr1 : failsWith (run1 State.reset 0x5121) (.unmodelled .relSkip1) = true ∧
    okAnd (run1 (relCfg (regs [(1, 3), (2, 4)])) 0x5121) (fun t => t.pc == 0x204) = true ∧
    okAnd (run1 (relCfg (regs [(1, 4), (2, 3)])) 0x5121) (fun t => t.pc == 0x202) = true := by decide

/-- T41, R202. -/
theorem test_skr2 : failsWith (run1 State.reset 0x5122) (.unmodelled .relSkip2) = true ∧
    okAnd (run1 (relCfg (regs [(1, 4), (2, 3)])) 0x5122) (fun t => t.pc == 0x204) = true := by decide

/-- T41, R203. -/
theorem test_skr3 : failsWith (run1 State.reset 0x5123) (.unmodelled .relSkip3) = true ∧
    okAnd (run1 (relCfg (regs [(1, 3), (2, 3)])) 0x5123) (fun t => t.pc == 0x204) = true := by decide

/-- T42. -/
theorem test_mul : okAnd (run1 (regs [(0, 0x12), (1, 0x34)]) 0x9011)
    (fun t => t.reg 0 == 0xA8 && t.reg vf == 3) = true := by decide

/-- T43a. -/
theorem test_mul_high_to_vx :
    okAnd (run1 (withCfg (regs [(0, 0x12), (1, 0x34)]) fun c => { c with mulHighTo := .vx }) 0x9011)
      (fun t => t.reg 0 == 3 && t.reg vf == 0xA8) = true := by decide

/-- T44, T47. -/
theorem test_div : okAnd (run1 (regs [(0, 0x64), (1, 7)]) 0x9012) (fun t => t.reg 0 == 0xE && t.reg vf == 2) = true ∧
    okAnd (run1 (regs [(vf, 0x11), (1, 4)]) 0x9F12) (fun t => t.reg vf == 1) = true := by decide

/-- T46. -/
theorem test_div_zero : failsWith (run1 (regs [(0, 0x64)]) 0x9012) .divideByZero = true := by decide

/-- T48. -/
theorem test_bcd16 : okAnd (run1 (withI (regs [(0, 0x30), (1, 0x39)]) 0x300 []) 0x9013)
    (fun t => t.mem.readBytes 0x300 5 == [1, 2, 3, 4, 5] && t.pc == 0x202) = true := by decide

/-- T50. -/
theorem test_bcd16_bounds :
    failsWith (run1 (withI (regs [(0, 0x30), (1, 0x39)]) 0xFFC []) 0x9013) (.memoryOutOfBounds 0x1000) = true := by
  decide

/-- T51. -/
theorem test_glyph3_unmodelled : failsWith (run1 State.reset 0xF194) (.unmodelled .fx94) = true := by decide

/-- A state with an effect supplied for it: read 0x300, then V2 := 9, I := 0x123, memory 0x400 := 7 (R207). -/
def fx94State (addr : Nat) : State :=
  withCfg State.reset fun c =>
    { c with fx94Sem := [(State.reset.fx94Query 1, ⟨[0x300], [(2, 9)], some 0x123, [(addr, 7)]⟩)] }

/-- The meaning with an effect supplied (R207). -/
theorem test_glyph3_supplied : okAnd (exec (.glyph3 1) (fx94State 0x400))
    (fun t => t.reg 2 == 9 && t.i == 0x123 && t.mem.byteAt 0x400 == 7 && t.pc == 0x202) = true ∧
    failsWith (exec (.glyph3 1) (fx94State 0x1000)) (.memoryOutOfBounds 0x1000) = true := by decide

/-! ## Display -/

/-- T53, T58. -/
theorem test_drw : okAnd (run1 (withI (regs [(1, 0xA), (2, 5)]) 0x300 [0xC0]) 0xD121)
    (fun t => t.fb == lit [(10, 5), (11, 5)] && t.reg vf == 0 && t.redraw && t.pc == 0x202) = true ∧
    okAnd (run1 (withI (regs [(1, 0xC8)]) 0x300 [0x80]) 0xD121) (fun t => t.fb == lit [(8, 0)]) = true := by
  decide +kernel

/-- T55: the wrap; and T54: the collision of the second draw. -/
theorem test_drw_wrap_collision : okAnd (run1 (withI (regs [(1, 0x3F), (2, 0x1F)]) 0x300 [0xFF]) 0xD121)
    (fun t => t.fb == lit [(63, 31), (0, 31), (1, 31), (2, 31), (3, 31), (4, 31), (5, 31), (6, 31)] &&
      t.reg vf == 0) = true ∧
    okAnd (run1 { withI (regs [(1, 0xA), (2, 5)]) 0x300 [0xC0] with fb := lit [(10, 5), (11, 5)] } 0xD121)
      (fun t => t.fb == 0 && t.reg vf == 1) = true := by decide +kernel

/-- T59. -/
theorem test_cls : okAnd (run1 { regs [(vf, 1)] with fb := lit [(0, 0), (63, 31)] } 0x00E0)
    (fun t => t.fb == 0 && t.reg vf == 1 && t.redraw && t.pc == 0x202) = true := by decide +kernel

/-! ## Keypad -/

/-- T60, T61. -/
theorem test_skp : okAnd (run1 (press (regs [(5, 0xC)]) 0xC) 0xE59E) (fun t => t.pc == 0x204) = true ∧
    okAnd (run1 (press (regs [(5, 0xC)]) 3) 0xE59E) (fun t => t.pc == 0x202) = true := by decide

/-- T64, T64a. -/
theorem test_skp_index : failsWith (run1 (regs [(5, 0x10)]) 0xE59E) (.unmodelled .keyIndex) = true ∧
    okAnd (run1 (withCfg (press (regs [(5, 0x1C)]) 0xC) fun c => { c with keyIndexPolicy := .lowNibble }) 0xE59E)
      (fun t => t.pc == 0x204) = true := by decide

/-- T62, T63. -/
theorem test_sknp : okAnd (run1 (press (regs [(5, 0xC)]) 3) 0xE5A1) (fun t => t.pc == 0x204) = true ∧
    okAnd (run1 (press (regs [(5, 0xC)]) 0xC) 0xE5A1) (fun t => t.pc == 0x202) = true := by decide

/-- T65. -/
theorem test_ldVxK_lowest : okAnd (run1 (press (press State.reset 9) 3) 0xF20A)
    (fun t => t.reg 2 == 3 && t.pc == 0x202) = true := by decide

/-- T66. -/
theorem test_ldVxK_waits : okAnd (run1 { State.reset with dt := 3 } 0xF20A)
    (fun t => t.pc == 0x200 && t.dt == 2) = true := by decide

/-! ## Index register, BCD, register block -/

/-- T68. -/
theorem test_ldI : okAnd (run1 State.reset 0xA300) (fun t => t.i == 0x300) = true := by decide

/-- T69. -/
theorem test_addI : okAnd (run1 (withI (regs [(2, 0x10), (vf, 1)]) 0x300 []) 0xF21E)
    (fun t => t.i == 0x310 && t.reg vf == 1) = true := by decide

/-- T70. -/
theorem test_addI_wraps : okAnd (run1 (withI (regs [(2, 1)]) 0xFFFF []) 0xF21E) (fun t => t.i == 0) = true := by
  decide

/-- T71, T72. -/
theorem test_ldF : okAnd (run1 (regs [(7, 0xA)]) 0xF729) (fun t => t.i == 0x082) = true ∧
    okAnd (run1 (regs [(7, 0xF)]) 0xF729) (fun t => t.i == 0x09B) = true := by decide

/-- T73. -/
theorem test_ldF_index : failsWith (run1 (regs [(7, 0x10)]) 0xF729) (.unmodelled .glyphIndex) = true := by
  decide

/-- T74. -/
theorem test_ldB : okAnd (run1 (withI (regs [(3, 0x9C)]) 0x300 []) 0xF333)
    (fun t => t.mem.readBytes 0x300 3 == [1, 5, 6]) = true := by decide

/-- T77. -/
theorem test_ldB_bounds :
    failsWith (run1 (withI (regs [(3, 0x9C)]) 0xFFE []) 0xF333) (.memoryOutOfBounds 0x1000) = true := by decide

/-- T78, T78a. -/
theorem test_ldMemVx : okAnd (run1 (withI (regs [(0, 1), (1, 2), (2, 3)]) 0x300 []) 0xF255)
    (fun t => t.mem.readBytes 0x300 4 == [1, 2, 3, 0] && t.i == 0x300) = true ∧
    okAnd (run1 (withCfg (withI (regs [(0, 1), (1, 2), (2, 3)]) 0x300 [])
      fun c => { c with loadStoreIncrementsI := true }) 0xF255)
      (fun t => t.mem.readBytes 0x300 3 == [1, 2, 3] && t.i == 0x303) = true := by decide

/-- T80. -/
theorem test_ldMemVx_bounds : failsWith (run1 (withI State.reset 0xFF1 []) 0xFF55) (.memoryOutOfBounds 0x1000) = true := by
  decide

/-- T81. -/
theorem test_ldVxMem : okAnd (run1 (withI (regs [(3, 0x33)]) 0x300 [1, 5, 6, 7]) 0xF265)
    (fun t => t.reg 0 == 1 && t.reg 1 == 5 && t.reg 2 == 6 && t.reg 3 == 0x33 && t.i == 0x300) = true := by
  decide

/-- T82, T83. -/
theorem test_ldVxMem_top : okAnd (run1 (withI State.reset 0xFFF [0x42]) 0xF065) (fun t => t.reg 0 == 0x42) = true ∧
    failsWith (run1 (withI State.reset 0xFFF []) 0xF165) (.memoryOutOfBounds 0x1000) = true := by decide

/-! ## Timers, fetch and failures -/

/-- T84. -/
theorem test_ldVxDt : okAnd (run1 { State.reset with dt := 5 } 0xF307) (fun t => t.reg 3 == 5 && t.dt == 4) = true := by
  decide

/-- T85, T86. -/
theorem test_ldDtVx : okAnd (run1 (regs [(2, 3)]) 0xF215) (fun t => t.dt == 2) = true ∧
    okAnd (run1 { State.reset with dt := 9 } 0xF215) (fun t => t.dt == 0) = true := by decide

/-- T87, T88. -/
theorem test_ldStVx : okAnd (run1 (regs [(1, 1)]) 0xF118) (fun t => t.st == 0 && t.sound) = true ∧
    okAnd (run1 (regs [(1, 2)]) 0xF118) (fun t => t.st == 1 && !t.sound) = true := by decide

/-- T90, T99: the failed step does not tick, and the record of the failure. -/
theorem test_failed_step :
    transact (.step 0) { State.reset with dt := 5, st := 1 } =
      ({ State.reset with dt := 5, st := 1, faultMark := true }, .failed ⟨1, 0x200, some 0x0000, some 0x0000⟩) := by
  decide +kernel

/-- T97, T98. -/
theorem test_fetch_top : failsWith (step { State.reset with pc := 0xFFF }) (.memoryOutOfBounds 0x1000) = true ∧
    okAnd (run1 { State.reset with pc := 0xFFE } 0x6001) (fun t => t.reg 0 == 1 && t.pc == 0x1000) = true := by
  decide

/-- What init leaves is `State.reset`, with the default parameters (R360; log 1). -/
theorem test_init_is_reset : initState defaultParams = State.reset := by decide +kernel

/-- E10, H1: reset keeps the loaded bytes. -/
theorem test_reset_keeps_memory :
    (transact .reset (transact (.load [0x12, 0x00]) State.reset).1).1.mem.readBytes 0x200 2 = [0x12, 0x00] := by
  decide

/-! ## Witnesses: every statement's hypotheses are met -/

/-- A state after reset with a word at its pc. -/
def placed (w : Nat) : State := State.reset.withFetchWord 16 w

theorem witness_EncodeOfDecode : decode 0x8126 = .ok (.shr 1 2) := by decide

theorem witness_DecodeExactlySupported :
    supportedWord 0x00E0 = true ∧ (∃ i, decode 0x00E0 = .ok i) ∧ supportedWord 0x00E1 = false ∧
    decode 0x00E1 = .error (.unsupportedOpcode 0x00E1) := ⟨by decide, ⟨.cls, by decide⟩, by decide, by decide⟩

theorem witness_UnsupportedOpcodeExactly :
    (placed 0x5124).fetchWord = .ok 0x5124 ∧ supportedWord 0x5124 = false ∧
    step (placed 0x5124) = .fault (.unsupportedOpcode 0x5124) :=
  ⟨by decide, by decide, fault_of_failsWith (by decide)⟩

theorem witness_FetchRule :
    (0xFFE#16).toNat + 1 ≤ 0xFFF ∧ 0xFFF < (0xFFF#16).toNat + 1 ∧ 0xFFF < (0x1000#16).toNat + 1 ∧
    step { State.reset with pc := 0xFFF } = .fault (.memoryOutOfBounds 0x1000) ∧
    step { State.reset with pc := 0x1000 } = .fault (.memoryOutOfBounds 0x1000) ∧
    step { State.reset with pc := 0x1001 } = .fault (.memoryOutOfBounds 0x1001) :=
  ⟨by decide, by decide, by decide, fault_of_failsWith (by decide), fault_of_failsWith (by decide),
    fault_of_failsWith (by decide)⟩

theorem witness_StepRunsDecoded_next :
    (placed 0x6A42).pc.toNat ≤ 0xFFE ∧
    decode (wordOfBytes ((placed 0x6A42).mem.byteAt 0x200) ((placed 0x6A42).mem.byteAt 0x201)) = .ok (.ldImm 0xA 0x42) ∧
    ∃ t, exec (.ldImm 0xA 0x42) (placed 0x6A42) = .next t := by
  refine ⟨by decide, by decide, ?_⟩
  obtain ⟨t, h, -⟩ := next_of_okAnd (r := exec (.ldImm 0xA 0x42) (placed 0x6A42)) (p := fun _ => true) (by decide)
  exact ⟨t, h⟩

theorem witness_StepRunsDecoded_fault :
    (placed 0x00EE).pc.toNat ≤ 0xFFE ∧
    decode (wordOfBytes ((placed 0x00EE).mem.byteAt 0x200) ((placed 0x00EE).mem.byteAt 0x201)) = .ok .ret ∧
    exec .ret (placed 0x00EE) = .fault .stackUnderflow :=
  ⟨by decide, by decide, fault_of_failsWith (by decide)⟩

/-- For TimersCountSteps and StepKeepsKeysAndConfig: a step that writes no timer, with both timers running. -/
theorem witness_TimersCountSteps :
    ∃ t, step { placed 0x6A42 with dt := 5, st := 1 } = .next t ∧ (t.dt == 4 && t.st == 0 && t.sound) = true :=
  next_of_okAnd (p := fun t => t.dt == 4 && t.st == 0 && t.sound) (by decide)

/-- `State.reset` with a word placed meets the invariant, and steps: for StepKeepsInvariant, TransactionsKeepInvariant and
StepKeepsKeysAndConfig. -/
theorem witness_StepKeepsInvariant : (placed 0xF255).Inv ∧ ∃ t, step (placed 0xF255) = .next t ∧ true = true :=
  ⟨⟨by decide, by decide, by decide, by decide⟩,
    next_of_okAnd (p := fun _ => true) (by decide)⟩

/-- For RequestFlagsSticky: an instruction that raises the redraw flag and one that does not. -/
theorem witness_RequestFlagsSticky :
    (∃ t, exec .cls State.reset = .next t ∧ t.redraw = true) ∧
    (∃ t, exec (.ldImm 0 1) State.reset = .next t ∧ (!t.redraw) = true) :=
  ⟨next_of_okAnd (p := fun t => t.redraw) (by decide), next_of_okAnd (p := fun t => !t.redraw) (by decide)⟩

/-- For OnlyCallAndRetMoveStack: a call, a return, and another instruction. -/
theorem witness_OnlyCallAndRetMoveStack :
    (∃ t, exec (.call 0x300) State.reset = .next t ∧ (t.sp == 1) = true) ∧
    (∃ t, exec .ret (withStack State.reset 1 0x206) = .next t ∧ (t.sp == 0) = true) ∧
    (∃ t, exec .cls State.reset = .next t ∧ (t.sp == 0) = true) :=
  ⟨next_of_okAnd (p := fun t => t.sp == 1) (by decide), next_of_okAnd (p := fun t => t.sp == 0) (by decide),
    next_of_okAnd (p := fun t => t.sp == 0) (by decide)⟩

/-- For OnlyStoresWriteMemory and OnlyDrawsWriteFramebuffer: an instruction that is none of those they name. -/
theorem witness_OnlyStoresWriteMemory :
    (∃ t, exec (.ldVxMem 3) State.reset = .next t ∧ true = true) ∧
    (∀ x, Instr.ldVxMem 3 ≠ .ldB x ∧ Instr.ldVxMem 3 ≠ .ldMemVx x ∧ Instr.ldVxMem 3 ≠ .glyph3 x) ∧
    (∀ x y, Instr.ldVxMem 3 ≠ .bcd16 x y) ∧ Instr.ldVxMem 3 ≠ .cls ∧ (∀ x y n, Instr.ldVxMem 3 ≠ .drw x y n) :=
  ⟨next_of_okAnd (p := fun _ => true) (by decide), by simp, by simp, by simp, by simp⟩

/-- For OnlyIndexWriters: FX55 without the compatibility mode, and another instruction with it. -/
theorem witness_OnlyIndexWriters :
    (∃ t, exec (.ldMemVx 1) State.reset = .next t ∧ (t.i == 0) = true) ∧
    State.reset.cfg.loadStoreIncrementsI = false ∧
    (∃ t, exec (.ldImm 1 2) (withCfg State.reset fun c => { c with loadStoreIncrementsI := true }) = .next t ∧
      (t.i == 0) = true) ∧
    (∀ nnn, Instr.ldMemVx 1 ≠ .ldI nnn) ∧ (∀ x, Instr.ldImm 1 2 ≠ .ldMemVx x ∧ Instr.ldImm 1 2 ≠ .ldVxMem x) :=
  ⟨next_of_okAnd (p := fun t => t.i == 0) (by decide), rfl,
    next_of_okAnd (p := fun t => t.i == 0) (by decide), by simp, by simp⟩

/-- For FailuresDecidedByRegistersAndMemory: two states that differ in keys, timers, framebuffer, flags, random
input and the stack's contents. -/
theorem witness_FailuresDecidedByRegistersAndMemory :
    step (placed 0x00EE) = .fault .stackUnderflow ∧
    step { placed 0x00EE with
      keys := Vector.replicate 16 true, dt := 3, st := 4, fb := 1, redraw := true, rndIn := some 7,
      stack := Vector.replicate 16 0x300 } =
        .fault .stackUnderflow :=
  ⟨fault_of_failsWith (by decide), fault_of_failsWith (by decide)⟩

/-- For FailedStepChangesNothing: a failure with a word, and one of the fetch. -/
theorem witness_FailedStepChangesNothing :
    step { placed 0x00EE with rndIn := some 0 } = .fault .stackUnderflow ∧
    (transact (.step 0) (placed 0x00EE)).2 = .failed ⟨4, 0x200, some 0x00EE, none⟩ ∧
    (placed 0x00EE).pc.toNat ≤ 0xFFE ∧
    (transact (.step 0) { State.reset with pc := 0x10FE }).2 = .failed ⟨2, 0x10FE, none, some 0x10FE⟩ ∧
    0xFFE < ({ State.reset with pc := 0x10FE } : State).pc.toNat :=
  ⟨fault_of_failsWith (by decide), by decide⟩

/-- The records of the other kinds (R320's codes, R338's reason numbers): one failure of each. -/
theorem test_failure_records :
    (transact (.step 0) (withI (placed 0xF155) 0xFFF [])).2 = .failed ⟨2, 0x200, some 0xF155, some 0x1000⟩ ∧
    (transact (.step 0) (withStack (placed 0x2400) 16 0x202)).2 = .failed ⟨3, 0x200, some 0x2400, none⟩ ∧
    (transact (.step 0) (placed 0x9012)).2 = .failed ⟨5, 0x200, some 0x9012, none⟩ ∧
    (transact (.step 0) (placed 0x5121)).2 = .failed ⟨6, 0x200, some 0x5121, some 1⟩ ∧
    (transact (.step 0) (placed 0x5122)).2 = .failed ⟨6, 0x200, some 0x5122, some 2⟩ ∧
    (transact (.step 0) (placed 0x5123)).2 = .failed ⟨6, 0x200, some 0x5123, some 3⟩ ∧
    (transact (.step 0) (placed 0xF194)).2 = .failed ⟨6, 0x200, some 0xF194, some 4⟩ := by decide

/-- The records of the two index failures. -/
theorem test_failure_records_index :
    (transact (.step 0) ((regs [(5, 16)]).withFetchWord 16 0xE59E)).2 = .failed ⟨6, 0x200, some 0xE59E, some 5⟩ ∧
    (transact (.step 0) ((regs [(5, 16)]).withFetchWord 16 0xF529)).2 = .failed ⟨6, 0x200, some 0xF529, some 6⟩ := by decide

/-- For the arithmetic statements: X other than VF; and a random byte presented (RandomByte), and a mask bit that is 0. -/
theorem witness_arithmetic :
    (3 : RegIx) ≠ vf ∧ (withRnd State.reset 0xA7).rndIn = some 0xA7 ∧ (0x0F#8).getLsbD 7 = false ∧
    (regs [(1, 0xFF), (2, 1)]).reg 1 = 0xFF := by decide

theorem witness_RelationalSkips :
    State.reset.cfg.relSkipCond = none ∧
    (relCfg State.reset).cfg.relSkipCond = some ⟨[(3, 4)], [(4, 3)], [(3, 3)]⟩ := by decide

theorem witness_CallPushes :
    (withStack State.reset 0 0x202).sp.val = (0 : Fin 16).val ∧ (withStack State.reset 15 0x202).sp.val = (15 : Fin 16).val ∧
    (withStack State.reset 16 0x202).sp.val = 16 := by decide

theorem witness_ReturnPops :
    (withStack State.reset 1 0x206).sp.val = (0 : Fin 16).val + 1 ∧
    (withStack State.reset 16 0x206).sp.val = (15 : Fin 16).val + 1 ∧ State.reset.sp.val = 0 := by decide

/-- A callee that changed registers, pc and memory, but not the stack. -/
theorem witness_ReturnUndoesCall : (withStack State.reset 15 0x202).sp.val < 16 ∧
    ∃ t, exec (.call 0x300) (withStack State.reset 15 0x202) = .next t ∧
      ∃ c : State, c.stack = t.stack ∧ c.sp = t.sp ∧ c.reg 4 = 9 ∧ c.pc = 0x345 := by
  obtain ⟨t, h, -⟩ := next_of_okAnd (r := exec (.call 0x300) (withStack State.reset 15 0x202)) (p := fun _ => true)
    (by decide)
  exact ⟨by decide, t, h, { (t.setReg 4 9) with pc := 0x345 }, rfl, rfl, by simp [State.reg, State.setReg], rfl⟩

theorem witness_Multiply : State.reset.cfg.mulHighTo = .vf ∧
    (withCfg State.reset fun c => { c with mulHighTo := .vx }).cfg.mulHighTo = .vx ∧ (3 : RegIx) ≠ vf := by decide

theorem witness_Divide : ((regs [(1, 1)]).reg 1).toNat ≠ 0 ∧ (State.reset.reg 1).toNat = 0 := by decide

theorem witness_Bcd16Stores :
    (withI State.reset 0xFFB []).i.toNat + 4 ≤ 0xFFF ∧ 0xFFF < (withI State.reset 0xFFC []).i.toNat + 4 ∧
    (withI State.reset 0xFFB []).mem.wf = true ∧ State.reset.cfg.bcd16Pair = .vxHi ∧
    (withCfg State.reset fun c => { c with bcd16Pair := .vyHi }).cfg.bcd16Pair = .vyHi := by decide

/-- For GlyphLookup: an effect inside memory (the last byte), one outside it (the first byte after), and none. -/
theorem witness_GlyphLookup :
    fx94Effect (fx94State 0xFFF).cfg.fx94Sem ((fx94State 0xFFF).fx94Query 1) =
      some ⟨[0x300], [(2, 9)], some 0x123, [(0xFFF, 7)]⟩ ∧
    (∀ a ∈ [0x300], a ≤ 0xFFF) ∧ (∀ c ∈ [((0xFFF : Nat), (7 : Byte))], c.1 ≤ 0xFFF) ∧
    fx94Effect (fx94State 0x1000).cfg.fx94Sem ((fx94State 0x1000).fx94Query 1) =
      some ⟨[0x300], [(2, 9)], some 0x123, [(0x1000, 7)]⟩ ∧
    (∀ b ∈ [0x300], b ≤ 0xFFF) ∧ 0xFFF < 0x1000 ∧ (fx94State 0xFFF).mem.wf = true ∧
    fx94Effect State.reset.cfg.fx94Sem (State.reset.fx94Query 1) = none := by decide

/-- For DrawSprite: a sprite up to the last byte, one of no rows, the origin after VF is cleared, and one outside memory. -/
theorem witness_DrawSprite :
    (withI State.reset 0xFFF [0xFF]).i.toNat + (1#4).toNat ≤ 0x1000 ∧ (0#4).toNat = 0 ∧
    [(0xFF : Byte)].length = (1#4).toNat ∧
    (∀ k, k < (1#4).toNat → [(0xFF : Byte)].getD k 0 = (withI State.reset 0xFFF [0xFF]).mem.byteAt (0xFFF + k)) ∧
    (withCfg (regs [(vf, 5)]) fun c => { c with drawOriginSnapshot := false }).cfg.drawOriginSnapshot = false ∧
    0 < (2#4).toNat ∧ 0xFFF < (withI State.reset 0xFFF [0xFF]).i.toNat + (2#4).toNat - 1 := by decide

/-- For DrawTwiceRestores: a non-zero sprite on a clear screen. -/
theorem witness_DrawTwiceRestores :
    (1 : RegIx) ≠ vf ∧ (2 : RegIx) ≠ vf ∧ (withI State.reset 0xFFF [0xFF]).i.toNat + (1#4).toNat ≤ 0x1000 ∧
    (withI State.reset 0xFFF [0xFF]).fb = 0 ∧
    ∃ k, k < (1#4).toNat ∧ (withI State.reset 0xFFF [0xFF]).mem.byteAt (0xFFF + k) ≠ 0 :=
  ⟨by decide, by decide, by decide, rfl, 0, by decide, by decide⟩

theorem witness_KeySkips :
    (15 : Fin 16).val = ((regs [(5, 15)]).reg 5).toNat ∧
    16 ≤ ((regs [(5, 16)]).reg 5).toNat ∧
    (withCfg (regs [(5, 16)]) fun c => { c with keyIndexPolicy := .lowNibble }).cfg.keyIndexPolicy = .lowNibble ∧
    (0 : Fin 16).val = ((regs [(5, 16)]).reg 5).toNat % 16 ∧ (regs [(5, 16)]).cfg.keyIndexPolicy = .fault := by decide

/-- For AwaitKey: the lowest of two keys, and none. -/
theorem witness_AwaitKey :
    (press (press State.reset 9) 3).keys[(3 : Fin 16).val] = true ∧
    (∀ j : Fin 16, j < 3 → (press (press State.reset 9) 3).keys[j.val] = false) ∧
    (∀ k : Fin 16, State.reset.keys[k.val] = false) := by decide

theorem witness_GlyphAddress :
    ((regs [(7, 15)]).reg 7).toNat < 16 ∧ 16 ≤ ((regs [(7, 16)]).reg 7).toNat ∧
    (regs [(7, 16)]).cfg.glyphIndexPolicy = .fault ∧
    (withCfg (regs [(7, 16)]) fun c => { c with glyphIndexPolicy := .lowNibble }).cfg.glyphIndexPolicy = .lowNibble ∧
    (withCfg (regs [(7, 16)]) fun c => { c with glyphIndexPolicy := .unmasked }).cfg.glyphIndexPolicy = .unmasked := by
  decide

theorem witness_BcdStores :
    (withI State.reset 0xFFD []).i.toNat + 2 ≤ 0xFFF ∧ 0xFFF < (withI State.reset 0xFFE []).i.toNat + 2 ∧
    (withI State.reset 0xFFD []).mem.wf = true := by decide

/-- For BlockStores, BlockLoads and StoreThenLoadRestores, both sides of the bound and of the mode. -/
theorem witness_Blocks :
    (withI State.reset 0xFF0 []).i.toNat + (15 : RegIx).toNat ≤ 0xFFF ∧
    0xFFF < (withI State.reset 0xFF1 []).i.toNat + (15 : RegIx).toNat ∧ (withI State.reset 0xFF0 []).mem.wf = true ∧
    State.reset.cfg.loadStoreIncrementsI = false ∧
    (withCfg State.reset fun c => { c with loadStoreIncrementsI := true }).cfg.loadStoreIncrementsI = true ∧
    (2 : RegIx).toNat < (3 : RegIx).toNat := by decide

/-- FX15 with V2 = 3 at 0x200, FX07 into V3 after it. -/
def delayProgram : State := (transact (.load [0xF2, 0x15, 0xF3, 0x07]) (regs [(2, 3)])).1

theorem witness_DelayReadsOneLower :
    delayProgram.fetchInstr = .ok (.ldDtVx 2) ∧
    ∃ t, step delayProgram = .next t ∧ decide (t.fetchInstr = .ok (.ldVxDt 3)) = true :=
  ⟨by decide, next_of_okAnd (p := fun t => decide (t.fetchInstr = .ok (.ldVxDt 3))) (by decide)⟩

theorem witness_SoundRaisedAtOne :
    ((regs [(1, 1)]).withFetchWord 16 0xF118).fetchInstr = .ok (.ldStVx 1) ∧
    (((regs [(1, 1)]).withFetchWord 16 0xF118).reg 1).toNat = 1 ∧
    ((regs [(1, 2)]).withFetchWord 16 0xF118).fetchInstr = .ok (.ldStVx 1) ∧
    (((regs [(1, 2)]).withFetchWord 16 0xF118).reg 1).toNat ≠ 1 ∧ (placed 0xF118).fetchInstr = .ok (.ldStVx 1) := by
  decide

theorem witness_ProgramLoad :
    (List.replicate 3584 (0xAA : Byte)).length ≤ 3584 ∧ 3584 < (List.replicate 3585 (0xAA : Byte)).length ∧
    State.reset.mem.wf = true ∧ 0 < (List.replicate 3584 (0xAA : Byte)).length := by
  rw [List.length_replicate, List.length_replicate]; exact ⟨by omega, by omega, by decide, by omega⟩

/-- For HostPorts: a pixel at the last corner, and a successful step that uses its random byte. -/
theorem witness_HostPorts : (63 : Nat) < 64 ∧ (31 : Nat) < 32 ∧
    ∃ t, step { placed 0xC30F with rndIn := some 0xA7 } = .next t ∧ (t.reg 3 == 7) = true :=
  ⟨by decide, by decide, next_of_okAnd (p := fun t => t.reg 3 == 7) (by decide)⟩

theorem witness_EndOfRunStays : (placed 0x1200).EndOfRun := ⟨rfl, 0x200, by decide, by decide⟩

end Sys2Proof.Machine.Tests
end

section
/-! What one instruction can do to the state, said once: `Instr.effectKind` sorts the instructions by the components they
write, `ExecEffect` gives the state after a successful instruction of each kind, and `exec_effect` ties both to `exec`. The
frames and the invariant of 10_state are read off from it. -/

namespace Sys2Proof

/-- The ways an instruction writes the state, by the components other than V and pc that it writes. -/
inductive EffectKind where
  /-- V registers and pc alone. -/
  | regs
  /-- DT (47_timers R301). -/
  | delay
  /-- ST (47_timers R302). -/
  | sound
  /-- The framebuffer, VF and the redraw flag (44_display). -/
  | display
  /-- The stack, one entry more (42_control_flow R183). -/
  | push
  /-- The stack depth, one less (42_control_flow R181). -/
  | pop
  /-- I (46_memory_index R270–R272). -/
  | index
  /-- Memory from I (46_memory_index R273, 43_extended R206). -/
  | store
  /-- Memory from I, and I in the compatibility mode (46_memory_index R274, R276). -/
  | storeBlock
  /-- V, and I in the compatibility mode (46_memory_index R275, R276). -/
  | loadBlock
  /-- V, I and memory (43_extended R207). -/
  | glyph3
  deriving DecidableEq

/-- The kind of an instruction's effect. -/
def Instr.effectKind (i : Instr) : EffectKind :=
  match i with
  | .cls | .drw .. => .display
  | .call _ => .push
  | .ret => .pop
  | .ldDtVx _ => .delay
  | .ldStVx _ => .sound
  | .ldI _ | .addI _ | .ldF _ => .index
  | .ldB _ | .bcd16 .. => .store
  | .ldMemVx _ => .storeBlock
  | .ldVxMem _ => .loadBlock
  | .glyph3 _ => .glyph3
  | _ => .regs

theorem Instr.effectKind_eq_display {i : Instr} : i.effectKind = .display ↔ i = .cls ∨ ∃ x y n, i = .drw x y n := by
  cases i <;> simp [effectKind]

theorem Instr.effectKind_eq_push {i : Instr} : i.effectKind = .push ↔ ∃ nnn, i = .call nnn := by
  cases i <;> simp [effectKind]

theorem Instr.effectKind_eq_pop {i : Instr} : i.effectKind = .pop ↔ i = .ret := by
  cases i <;> simp [effectKind]

theorem Instr.effectKind_eq_index {i : Instr} :
    i.effectKind = .index ↔ (∃ nnn, i = .ldI nnn) ∨ ∃ x, i = .addI x ∨ i = .ldF x := by
  cases i <;> simp [effectKind]

theorem Instr.effectKind_eq_glyph3 {i : Instr} : i.effectKind = .glyph3 ↔ ∃ x, i = .glyph3 x := by
  cases i <;> simp [effectKind]

theorem Instr.effectKind_eq_storeBlock {i : Instr} : i.effectKind = .storeBlock ↔ ∃ x, i = .ldMemVx x := by
  cases i <;> simp [effectKind]

theorem Instr.effectKind_eq_loadBlock {i : Instr} : i.effectKind = .loadBlock ↔ ∃ x, i = .ldVxMem x := by
  cases i <;> simp [effectKind]

end Sys2Proof

namespace Sys2Proof.Machine

/-! ### The state after an instruction -/

/-- The pc an instruction that moves neither stack nor memory can leave: its own (FX0A waiting), the next, the one after a
skip, or a jump's target, which is at most NNN + V0 (42_control_flow R182, R184). -/
def NextPc (s : State) (p : Word) : Prop :=
  p = s.pc ∨ p = s.pc + 2 ∨ p = s.pc + 4 ∨ p.toNat ≤ 0x10FE

/-- The state after a successful instruction, by the kind of its effect. -/
inductive ExecEffect (s : State) : EffectKind → State → Prop
  | regs (v : Vector Byte 16) (p : Word) (hp : NextPc s p) : ExecEffect s .regs { s with v := v, pc := p }
  | delay (b : Byte) : ExecEffect s .delay { s with dt := b }.advance
  | sound (b : Byte) : ExecEffect s .sound { s with st := b }.advance
  | display (v : Vector Byte 16) (fb : BitVec 2048) :
      ExecEffect s .display { s with v := v, fb := fb, redraw := true }.advance
  | push (nnn : BitVec 12) (h : s.sp.val < 16) :
      ExecEffect s .push
        ({ s with stack := s.stack.set s.sp.val (s.pc + 2) h, sp := ⟨s.sp.val + 1, Nat.succ_lt_succ h⟩ }.goto
          (zextAddr nnn))
  | pop (h : 0 < s.sp.val) :
      ExecEffect s .pop ({ s with sp := ⟨s.sp.val - 1, by omega⟩ }.goto (s.stack[s.sp.val - 1]'(by omega)))
  | index (n : Nat) : ExecEffect s .index (s.setI n).advance
  | store (bs : List Byte) (h : bs.length = 0 ∨ s.i.toNat + bs.length ≤ 4096) :
      ExecEffect s .store { s with mem := s.mem.writeBytes s.i.toNat bs }.advance
  | storeBlock (x : RegIx) (bs : List Byte) (h : bs.length = 0 ∨ s.i.toNat + bs.length ≤ 4096) :
      ExecEffect s .storeBlock ({ s with mem := s.mem.writeBytes s.i.toNat bs }.blockI x).advance
  | loadBlock (x : RegIx) (bs : List Byte) : ExecEffect s .loadBlock ((s.loadRegs 0 bs).blockI x).advance
  | glyph3 (e : Config.Fx94Effect) (h : fx94OutOfBounds e = none) : ExecEffect s .glyph3 (s.applyFx94 e).advance

section Forms

variable {s t : State}

theorem NextPc.advance : NextPc s (s.pc + 2) := .inr (.inl rfl)

theorem NextPc.skipIf (c : Bool) : NextPc s (s.skipIf c).pc := by
  cases c
  · exact .inr (.inl rfl)
  · exact .inr (.inr (.inl rfl))

theorem toNat_zextAddr_le (nnn : BitVec 12) : (zextAddr nnn).toNat ≤ 0xFFF := by
  simp only [zextAddr, BitVec.toNat_setWidth]
  omega

/-- `NNN + V0` is at most 0xFFF + 0xFF (42_control_flow R184). -/
theorem toNat_offsetAddr_le (nnn : BitVec 12) (b : Byte) : (offsetAddr nnn b).toNat ≤ 0x10FE := by
  simp only [offsetAddr, BitVec.toNat_add, BitVec.toNat_setWidth]
  omega

/-- A V write followed by pc + 2. -/
theorem execEffect_of_writeReg {x : RegIx} {b : Byte} (h : writeReg s x b = .next t) : ExecEffect s .regs t := by
  cases h
  exact .regs _ _ .advance

theorem execEffect_of_writeRegFlag {x : RegIx} {b f : Byte} (h : writeRegFlag s x b f = .next t) :
    ExecEffect s .regs t := by
  cases h
  exact .regs _ _ .advance

theorem execEffect_of_skip {c : Bool} (h : skip s c = .next t) : ExecEffect s .regs t := by
  cases h
  exact .regs s.v _ (.skipIf c)

theorem execEffect_of_relSkip {rel : Option (List (Byte × Byte))} {r : Reason} {x y : RegIx}
    (h : relSkip s rel r x y = .next t) : ExecEffect s .regs t := by
  cases rel with
  | none => cases h
  | some l => exact execEffect_of_skip h

theorem execEffect_of_skipOnKey {x : RegIx} {b : Bool} (h : skipOnKey s x b = .next t) : ExecEffect s .regs t := by
  unfold skipOnKey at h
  split at h
  · cases h
  · exact execEffect_of_skip h

theorem execEffect_of_jump {w : Word} (hw : w.toNat ≤ 0x10FE) (h : Host.Outcome.next (s.goto w) = (.next t : Result)) :
    ExecEffect s .regs t := by
  cases h
  exact .regs s.v w (.inr (.inr (.inr hw)))

theorem execEffect_of_ldVxK {x : RegIx} (h : execLdVxK x s = .next t) : ExecEffect s .regs t := by
  unfold execLdVxK at h
  split at h
  · exact execEffect_of_writeReg h
  · cases h
    exact .regs s.v s.pc (.inl rfl)

theorem execEffect_of_div {x y : RegIx} (h : execDiv x y s = .next t) : ExecEffect s .regs t := by
  unfold execDiv at h
  split at h
  · cases h
  · exact execEffect_of_writeRegFlag h

theorem execEffect_of_drw {x y : RegIx} {n : BitVec 4} (h : execDrw x y n s = .next t) : ExecEffect s .display t := by
  obtain ⟨-, h⟩ := readThen_next h
  cases h
  exact .display _ _

theorem execEffect_of_ldF {x : RegIx} (h : execLdF x s = .next t) : ExecEffect s .index t := by
  unfold execLdF at h
  split at h
  · cases h
  · cases h
    exact .index _

theorem execEffect_of_call {nnn : BitVec 12} (h : execCall nnn s = .next t) : ExecEffect s .push t := by
  obtain ⟨hs, h⟩ := pushThen_next h
  cases h
  exact .push nnn hs

theorem execEffect_of_ret (h : execRet s = .next t) : ExecEffect s .pop t := by
  obtain ⟨hs, h⟩ := popThen_next h
  cases h
  exact .pop hs

theorem execEffect_of_store {bs : List Byte} (h : writeThen s s.i.toNat bs (fun t => .next t.advance) = .next t) :
    ExecEffect s .store t := by
  obtain ⟨hb, h⟩ := writeThen_next h
  cases h
  exact .store bs hb

theorem execEffect_of_ldMemVx {x : RegIx} (h : execLdMemVx x s = .next t) : ExecEffect s .storeBlock t := by
  obtain ⟨hb, h⟩ := writeThen_next h
  cases h
  exact .storeBlock x _ hb

theorem execEffect_of_ldVxMem {x : RegIx} (h : execLdVxMem x s = .next t) : ExecEffect s .loadBlock t := by
  obtain ⟨-, h⟩ := readThen_next h
  cases h
  exact .loadBlock x _

theorem execEffect_of_glyph3 {x : RegIx} (h : execGlyph3 x s = .next t) : ExecEffect s .glyph3 t := by
  unfold execGlyph3 at h
  split at h
  · cases h
  · split at h
    · cases h
    · cases h
      exact .glyph3 _ ‹_›

/-- What a successful instruction does: the effect of its kind, one arm of `exec` each. -/
theorem exec_effect {i : Instr} (h : exec i s = .next t) : ExecEffect s i.effectKind t := by
  cases i with
  | cls => cases h; exact .display s.v 0
  | drw => exact execEffect_of_drw h
  | call => exact execEffect_of_call h
  | ret => exact execEffect_of_ret h
  | jp nnn => exact execEffect_of_jump (Nat.le_trans (toNat_zextAddr_le nnn) (by decide)) h
  | jpV0 nnn => exact execEffect_of_jump (toNat_offsetAddr_le nnn _) h
  | seImm | sneImm | seReg | sneReg => exact execEffect_of_skip h
  | skr1 | skr2 | skr3 => exact execEffect_of_relSkip h
  | skp | sknp => exact execEffect_of_skipOnKey h
  | ldImm | addImm | ldReg | orReg | andReg | xorReg | rnd | ldVxDt => exact execEffect_of_writeReg h
  | addReg | sub | shr | subn | shl | mul => exact execEffect_of_writeRegFlag h
  | div => exact execEffect_of_div h
  | ldVxK => exact execEffect_of_ldVxK h
  | ldDtVx => cases h; exact .delay _
  | ldStVx => cases h; exact .sound _
  | ldI | addI => cases h; exact .index _
  | ldF => exact execEffect_of_ldF h
  | ldB | bcd16 => exact execEffect_of_store h
  | ldMemVx => exact execEffect_of_ldMemVx h
  | ldVxMem => exact execEffect_of_ldVxMem h
  | glyph3 => exact execEffect_of_glyph3 h

end Forms

/-! ### What an effect leaves unchanged -/

namespace ExecEffect

variable {s t : State} {k : EffectKind}

theorem keys_eq (h : ExecEffect s k t) : t.keys = s.keys := by
  cases h <;> simp

theorem cfg_eq (h : ExecEffect s k t) : t.cfg = s.cfg := by
  cases h <;> simp

theorem faultMark_eq (h : ExecEffect s k t) : t.faultMark = s.faultMark := by
  cases h <;> simp

theorem sound_eq (h : ExecEffect s k t) : t.sound = s.sound := by
  cases h <;> simp

theorem redraw_iff (h : ExecEffect s k t) : t.redraw = true ↔ s.redraw = true ∨ k = .display := by
  cases h <;> simp

theorem fb_eq (h : ExecEffect s k t) (hk : k ≠ .display) : t.fb = s.fb := by
  cases h with
  | display => exact absurd rfl hk
  | _ => simp

theorem stack_eq (h : ExecEffect s k t) (hk : k ≠ .push) : t.stack = s.stack := by
  cases h with
  | push => exact absurd rfl hk
  | _ => simp

theorem sp_le_of_ne_push (h : ExecEffect s k t) (hk : k ≠ .push) : t.sp.val ≤ s.sp.val := by
  cases h with
  | push => exact absurd rfl hk
  | _ => simp

theorem le_sp_of_ne_pop (h : ExecEffect s k t) (hk : k ≠ .pop) : s.sp.val ≤ t.sp.val := by
  cases h with
  | pop => exact absurd rfl hk
  | _ => simp

/-- I is written by the kinds index and glyph3, and by the two block kinds in the compatibility mode. -/
theorem i_eq (h : ExecEffect s k t) (hi : k ≠ .index) (hg : k ≠ .glyph3)
    (hb : s.cfg.loadStoreIncrementsI = true → k ≠ .storeBlock ∧ k ≠ .loadBlock) : t.i = s.i := by
  cases h with
  | index => exact absurd rfl hi
  | glyph3 => exact absurd rfl hg
  | storeBlock x bs =>
    have hoff : s.cfg.loadStoreIncrementsI = false := Bool.eq_false_iff.2 fun hc => (hb hc).1 rfl
    simp [State.blockI_off, hoff]
  | loadBlock x bs =>
    have hoff : (s.loadRegs 0 bs).cfg.loadStoreIncrementsI = false := by
      rw [State.loadRegs_cfg]; exact Bool.eq_false_iff.2 fun hc => (hb hc).2 rfl
    rw [State.blockI_off x hoff, State.advance_i, State.loadRegs_i]
  | _ => simp

end ExecEffect

/-! ### The invariant, part by part -/

/-- I is below 2^`I_BITS` (10_state R22). -/
def State.IndexInRange (s : State) : Prop := s.i.toNat < 2 ^ s.cfg.iBits.width

/-- Every return address in use is at most 0x1000 (10_state R24). -/
def State.ReturnsInRange (s : State) : Prop := ∀ k : Fin 16, k.val < s.sp.val → s.stack[k.val].toNat ≤ 0x1000

theorem State.inv_iff {s : State} :
    s.Inv ↔ s.mem.wf = true ∧ s.IndexInRange ∧ s.pc.toNat ≤ 0x10FE ∧ s.ReturnsInRange := Iff.rfl

/-- A value taken mod 2^`I_BITS` is below it, whatever it was. -/
theorem toNat_ofNat_mod_two_pow_lt (n w : Nat) : (BitVec.ofNat 16 (n % 2 ^ w)).toNat < 2 ^ w := by
  rw [BitVec.toNat_ofNat]
  exact Nat.lt_of_le_of_lt (Nat.mod_le _ _) (Nat.mod_lt _ (Nat.two_pow_pos w))

theorem State.indexInRange_setI (s : State) (n : Nat) : (s.setI n).IndexInRange :=
  toNat_ofNat_mod_two_pow_lt n s.cfg.iBits.width

theorem State.indexInRange_blockI {s : State} (x : RegIx) (h : s.IndexInRange) : (s.blockI x).IndexInRange := by
  unfold State.blockI
  split
  · exact s.indexInRange_setI _
  · exact h

theorem State.indexInRange_applyFx94 {s : State} (e : Config.Fx94Effect) (h : s.IndexInRange) :
    (s.applyFx94 e).IndexInRange := by
  rw [State.IndexInRange, State.applyFx94_i, State.applyFx94_cfg]
  cases e.iWrite with
  | none => exact h
  | some n => exact s.indexInRange_setI n

/-- A push of an address at most 0x1000 onto such addresses. -/
theorem State.returnsInRange_push {s : State} {w : Word} (hs : s.sp.val < 16) (h : s.ReturnsInRange)
    (hw : w.toNat ≤ 0x1000) :
    State.ReturnsInRange
      { s with stack := s.stack.set s.sp.val w hs, sp := ⟨s.sp.val + 1, Nat.succ_lt_succ hs⟩ } := by
  intro k hk
  by_cases hkt : s.sp.val = k.val
  · simpa [Vector.getElem_set, hkt] using hw
  · have hold : k.val < s.sp.val := by
      have : k.val < s.sp.val + 1 := hk
      omega
    simpa [Vector.getElem_set, hkt] using h k hold

/-- From a fetched instruction, pc + 2 and pc + 4 do not wrap, and every other target is small (10_state R23). -/
theorem NextPc.toNat_le {s : State} {p : Word} (h : NextPc s p) (hpc : s.pc.toNat ≤ 0xFFE) : p.toNat ≤ 0x10FE := by
  obtain rfl | rfl | rfl | hp := h
  · omega
  · bv_omega
  · bv_omega
  · exact hp

namespace ExecEffect

variable {s t : State} {k : EffectKind}

theorem wf_mem (h : ExecEffect s k t) (hm : s.mem.wf = true) : t.mem.wf = true := by
  cases h with
  | store bs hb => exact Memory.wf_writeBytes hm (hb.imp_left List.length_eq_zero_iff.1)
  | storeBlock x bs hb =>
    rw [State.advance_mem, State.blockI_mem]
    exact Memory.wf_writeBytes hm (hb.imp_left List.length_eq_zero_iff.1)
  | glyph3 e he =>
    rw [State.advance_mem, State.applyFx94_mem]
    exact Memory.wf_foldl_writeByte _ _ hm (fx94OutOfBounds_eq_none.1 he).2
  | _ => simpa using hm

theorem indexInRange (h : ExecEffect s k t) (hi : s.IndexInRange) : t.IndexInRange := by
  cases h with
  | index n => exact s.indexInRange_setI n
  | storeBlock x bs =>
    exact State.indexInRange_blockI (s := { s with mem := s.mem.writeBytes s.i.toNat bs }) x hi
  | loadBlock x bs =>
    have hl : (s.loadRegs 0 bs).IndexInRange := by
      rw [State.IndexInRange, State.loadRegs_i, State.loadRegs_cfg]
      exact hi
    exact State.indexInRange_blockI x hl
  | glyph3 e => exact State.indexInRange_applyFx94 e hi
  | _ => exact hi

theorem toNat_pc_le (h : ExecEffect s k t) (hpc : s.pc.toNat ≤ 0xFFE) (hr : s.ReturnsInRange) :
    t.pc.toNat ≤ 0x10FE := by
  have hnext : (s.pc + 2).toNat ≤ 0x10FE := NextPc.advance.toNat_le hpc
  cases h with
  | regs v p hp => exact hp.toNat_le hpc
  | push nnn => exact Nat.le_trans (toNat_zextAddr_le nnn) (by decide)
  | pop h0 => exact Nat.le_trans (hr ⟨s.sp.val - 1, by omega⟩ (Nat.sub_lt h0 Nat.one_pos)) (by decide)
  | _ => simpa using hnext

theorem returnsInRange (h : ExecEffect s k t) (hpc : s.pc.toNat ≤ 0xFFE) (hr : s.ReturnsInRange) :
    t.ReturnsInRange := by
  by_cases hk : k = .push
  · subst hk
    cases h with
    | push nnn hs => exact State.returnsInRange_push hs hr (by bv_omega)
  · intro j hj
    have hold : j.val < s.sp.val := Nat.lt_of_lt_of_le hj (h.sp_le_of_ne_push hk)
    simpa [h.stack_eq hk] using hr j hold

theorem inv (h : ExecEffect s k t) (hs : s.Inv) (hpc : s.pc.toNat ≤ 0xFFE) : t.Inv := by
  obtain ⟨hm, hi, -, hr⟩ := State.inv_iff.1 hs
  exact State.inv_iff.2 ⟨h.wf_mem hm, h.indexInRange hi, h.toNat_pc_le hpc hr, h.returnsInRange hpc hr⟩

end ExecEffect

/-- The end of a step writes only timers, the sound flag and the random input, none of which the invariant reads. -/
theorem State.inv_endStep {s : State} : s.endStep.Inv ↔ s.Inv := Iff.rfl

/-- What a successful step does: a fetched instruction's effect, then the end of the step. -/
theorem step_effect {s t : State} (h : step s = .next t) :
    ∃ i u, s.fetchInstr = .ok i ∧ ExecEffect s i.effectKind u ∧ t = u.endStep := by
  obtain ⟨i, u, hf, hx, rfl⟩ := step_next h
  exact ⟨i, u, hf, exec_effect hx, rfl⟩

/-! ### The statements of 10_state -/

/-- Settles O13: the fetch keeps pc at most 0xFFE, and every effect from there keeps the four parts of the invariant. -/
theorem stepKeepsInvariant : Obligations.StepKeepsInvariant := by
  unfold Obligations.StepKeepsInvariant
  intro s t hs hstep
  obtain ⟨i, u, hf, hu, rfl⟩ := step_effect hstep
  exact State.inv_endStep.2 (hu.inv hs (State.fetchInstr_ok hf).1)

/-- Settles O15: no effect writes the latch, the configuration or the fault mark, nor does the end of the step. -/
theorem stepKeepsKeysAndConfig : Obligations.StepKeepsKeysAndConfig := by
  unfold Obligations.StepKeepsKeysAndConfig
  intro s t hstep
  obtain ⟨i, u, -, hu, rfl⟩ := step_effect hstep
  exact ⟨hu.keys_eq, hu.cfg_eq, hu.faultMark_eq⟩

/-- Settles O16: the redraw flag is raised by the display effects alone, and no effect writes the sound flag. -/
theorem requestFlagsSticky : Obligations.RequestFlagsSticky := by
  unfold Obligations.RequestFlagsSticky
  intro i s t hx
  have hu := exec_effect hx
  exact ⟨hu.redraw_iff.trans (or_congr_right Instr.effectKind_eq_display), hu.sound_eq⟩

/-- Settles O17: the stack and its depth move by the effects of 2NNN and 00EE alone. -/
theorem onlyCallAndRetMoveStack : Obligations.OnlyCallAndRetMoveStack := by
  unfold Obligations.OnlyCallAndRetMoveStack
  intro i s t hx
  have hu := exec_effect hx
  refine ⟨fun hcall => ?_, fun hret => hu.le_sp_of_ne_pop (mt Instr.effectKind_eq_pop.1 hret)⟩
  have hk : i.effectKind ≠ .push := mt Instr.effectKind_eq_push.1 (not_exists.2 hcall)
  exact ⟨hu.stack_eq hk, hu.sp_le_of_ne_push hk⟩

/-- Settles O19: the framebuffer is written by the display effects alone. -/
theorem onlyDrawsWriteFramebuffer : Obligations.OnlyDrawsWriteFramebuffer := by
  unfold Obligations.OnlyDrawsWriteFramebuffer
  intro i s t hx hcls hdrw
  refine (exec_effect hx).fb_eq fun hk => ?_
  obtain hc | ⟨x, y, n, hd⟩ := Instr.effectKind_eq_display.1 hk
  · exact hcls hc
  · exact hdrw x y n hd

/-- Settles O20: I is written by the effects of the four instructions named, and by a block copy in the compatibility mode. -/
theorem onlyIndexWriters : Obligations.OnlyIndexWriters := by
  unfold Obligations.OnlyIndexWriters
  intro i s t hx hldI hothers hblock
  refine (exec_effect hx).i_eq (fun hk => ?_) (fun hk => ?_) fun hmode => ⟨fun hk => ?_, fun hk => ?_⟩
  · obtain ⟨nnn, rfl⟩ | ⟨x, rfl | rfl⟩ := Instr.effectKind_eq_index.1 hk
    · exact hldI nnn rfl
    · exact (hothers x).1 rfl
    · exact (hothers x).2.1 rfl
  · obtain ⟨x, hi⟩ := Instr.effectKind_eq_glyph3.1 hk
    exact (hothers x).2.2 hi
  · obtain ⟨x, hi⟩ := Instr.effectKind_eq_storeBlock.1 hk
    exact (hblock hmode x).1 hi
  · obtain ⟨x, hi⟩ := Instr.effectKind_eq_loadBlock.1 hk
    exact (hblock hmode x).2 hi

/-- Settles O12: at reset memory lists nothing, I is 0, pc is 0x200 and no return address is in use. -/
theorem resetMeetsInvariant : Obligations.ResetMeetsInvariant := by
  unfold Obligations.ResetMeetsInvariant
  refine State.inv_iff.2 ⟨rfl, ?_, ?_, fun k hk => absurd hk (Nat.not_lt_zero k.val)⟩
  · exact Nat.two_pow_pos State.reset.cfg.iBits.width
  · decide

end Sys2Proof.Machine
end

section
/-! The frame of memory (20_memory R66): of the effects of `ExecEffect`, the stores, the block store and FX94's alone write
memory. -/

namespace Sys2Proof

theorem Instr.effectKind_eq_store {i : Instr} :
    i.effectKind = .store ↔ (∃ x, i = .ldB x) ∨ ∃ x y, i = .bcd16 x y := by
  cases i <;> simp [effectKind]

end Sys2Proof

namespace Sys2Proof.Machine

theorem ExecEffect.mem_eq {s t : State} {k : EffectKind} (h : ExecEffect s k t) (hs : k ≠ .store)
    (hb : k ≠ .storeBlock) (hg : k ≠ .glyph3) : t.mem = s.mem := by
  cases h with
  | store => exact absurd rfl hs
  | storeBlock => exact absurd rfl hb
  | glyph3 => exact absurd rfl hg
  | _ => simp

/-- Settles O18: an instruction that is none of the four has none of the effects that write memory. -/
theorem onlyStoresWriteMemory : Obligations.OnlyStoresWriteMemory := by
  unfold Obligations.OnlyStoresWriteMemory
  intro i s t hx hothers hbcd16 a
  have hmem : t.mem = s.mem := by
    refine (exec_effect hx).mem_eq (fun hk => ?_) (fun hk => ?_) fun hk => ?_
    · obtain ⟨x, hi⟩ | ⟨x, y, hi⟩ := Instr.effectKind_eq_store.1 hk
      · exact (hothers x).1 hi
      · exact hbcd16 x y hi
    · obtain ⟨x, hi⟩ := Instr.effectKind_eq_storeBlock.1 hk
      exact (hothers x).2.1 hi
    · obtain ⟨x, hi⟩ := Instr.effectKind_eq_glyph3.1 hk
      exact (hothers x).2.2 hi
  rw [hmem]

end Sys2Proof.Machine
end

section
/-! The codec (30_encoding R92–R96). `DecodeRow` is the decoder's case table said once: ten families answer for every
word, the other six narrow the match. The two statements that start from a word are read off from it. -/

namespace Sys2Proof

theorem toNat_wordOfBytes (b0 b1 : Byte) : (wordOfBytes b0 b1).toNat = b0.toNat * 256 + b1.toNat :=
  toNat_append' b0 b1

/-! ### The decoder's answers -/

theorem decode_eq_ok {w : Word} {i : Instr} : decode w = .ok i ↔ decodeFields w = some i := by
  rw [decode]
  cases decodeFields w <;> simp

theorem decode_eq_unsupported {w : Word} :
    decode w = .error (.unsupportedOpcode w) ↔ decodeFields w = none := by
  rw [decode]
  cases decodeFields w <;> simp

/-- The fields of a format's word are the operands it was put together from, and its family and sub-operation pick the
constructor. -/
theorem decodeFields_encode (i : Instr) : decodeFields (encode i) = some i := by
  cases i with
  | cls | ret => rfl
  | jp nnn | call nnn | ldI nnn | jpV0 nnn => simp [encode, decodeFields]
  | seImm x nn | sneImm x nn | ldImm x nn | addImm x nn | rnd x nn => simp [encode, decodeFields]
  | drw x y n => simp [encode, decodeFields]
  | seReg x y | skr1 x y | skr2 x y | skr3 x y => simp [encode, decodeFields, decodeFamily5]
  | ldReg x y | orReg x y | andReg x y | xorReg x y | addReg x y | sub x y | shr x y | subn x y | shl x y =>
    simp [encode, decodeFields, decodeFamily8]
  | sneReg x y | mul x y | div x y | bcd16 x y => simp [encode, decodeFields, decodeFamily9]
  | skp x | sknp x => simp [encode, decodeFields, decodeFamilyE]
  | ldVxDt x | ldVxK x | ldDtVx x | ldStVx x | addI x | ldF x | ldB x | ldMemVx x | ldVxMem x | glyph3 x =>
    simp [encode, decodeFields, decodeFamilyF]

/-- Settles O2: the decoder's case table undoes the encoder, constructor by constructor. -/
theorem decodeOfEncode : Obligations.DecodeOfEncode := by
  unfold Obligations.DecodeOfEncode
  exact fun i => decode_eq_ok.2 (decodeFields_encode i)

/-! ### The decoder's case table -/

/-- That o is the decoder's answer for w, by w's family (R95). -/
inductive DecodeRow (w : Word) (o : Option Instr) : Prop
  /-- Families 1–4, 6, 7, A–D: the family alone decides. -/
  | plain (i : Instr) (hop : w.toNat / 4096 ∈ [1, 2, 3, 4, 6, 7, 10, 11, 12, 13]) (hi : encode i = w)
      (ho : o = some i) : DecodeRow w o
  /-- Families 0, 5, 8, 9, E, F: the whole word, N or NN narrows the match. -/
  | family0 (hop : fieldOp w = 0x0#4) (ho : o = decodeFamily0 w) : DecodeRow w o
  | family5 (hop : fieldOp w = 0x5#4) (ho : o = decodeFamily5 (fieldX w) (fieldY w) (fieldN w).toNat) : DecodeRow w o
  | family8 (hop : fieldOp w = 0x8#4) (ho : o = decodeFamily8 (fieldX w) (fieldY w) (fieldN w).toNat) : DecodeRow w o
  | family9 (hop : fieldOp w = 0x9#4) (ho : o = decodeFamily9 (fieldX w) (fieldY w) (fieldN w).toNat) : DecodeRow w o
  | familyE (hop : fieldOp w = 0xE#4) (ho : o = decodeFamilyE (fieldX w) (fieldNN w)) : DecodeRow w o
  | familyF (hop : fieldOp w = 0xF#4) (ho : o = decodeFamilyF (fieldX w) (fieldNN w)) : DecodeRow w o

section Formats
variable {w : Word} {op : BitVec 4}

theorem wordA_of_fieldOp (h : fieldOp w = op) : wordA op (fieldNNN w) = w := h ▸ wordA_fields w

theorem wordXB_of_fieldOp (h : fieldOp w = op) : wordXB op (fieldX w) (fieldNN w) = w := h ▸ wordXB_fields w

theorem wordXY_of_fieldOp (h : fieldOp w = op) : wordXY op (fieldX w) (fieldY w) (fieldN w) = w := h ▸ wordXY_fields w

theorem toNat_div_of_fieldOp (h : fieldOp w = op) : w.toNat / 4096 = op.toNat := h ▸ (toNat_fieldOp w).symm

theorem decodeRow_plain {i : Instr} (h : (fieldOp w).toNat = op.toNat)
    (hop : op.toNat ∈ [1, 2, 3, 4, 6, 7, 10, 11, 12, 13]) (hi : fieldOp w = op → encode i = w) :
    DecodeRow w (some i) :=
  .plain i (by rw [← toNat_fieldOp, h]; exact hop) (hi (BitVec.eq_of_toNat_eq h)) rfl

end Formats

theorem decodeFields_row (w : Word) : DecodeRow w (decodeFields w) := by
  have hop (op : BitVec 4) (h : (fieldOp w).toNat = op.toNat) : fieldOp w = op := BitVec.eq_of_toNat_eq h
  unfold decodeFields
  split
  next h => exact .family0 (hop 0x0#4 h) rfl
  next h => exact decodeRow_plain (op := 0x1#4) h (by decide) wordA_of_fieldOp
  next h => exact decodeRow_plain (op := 0x2#4) h (by decide) wordA_of_fieldOp
  next h => exact decodeRow_plain (op := 0x3#4) h (by decide) wordXB_of_fieldOp
  next h => exact decodeRow_plain (op := 0x4#4) h (by decide) wordXB_of_fieldOp
  next h => exact .family5 (hop 0x5#4 h) rfl
  next h => exact decodeRow_plain (op := 0x6#4) h (by decide) wordXB_of_fieldOp
  next h => exact decodeRow_plain (op := 0x7#4) h (by decide) wordXB_of_fieldOp
  next h => exact .family8 (hop 0x8#4 h) rfl
  next h => exact .family9 (hop 0x9#4 h) rfl
  next h => exact decodeRow_plain (op := 0xA#4) h (by decide) wordA_of_fieldOp
  next h => exact decodeRow_plain (op := 0xB#4) h (by decide) wordA_of_fieldOp
  next h => exact decodeRow_plain (op := 0xC#4) h (by decide) wordXB_of_fieldOp
  next h => exact decodeRow_plain (op := 0xD#4) h (by decide) wordXY_of_fieldOp
  next h => exact .familyE (hop 0xE#4 h) rfl
  next =>
    have hlt : (fieldOp w).toNat < 16 := (fieldOp w).isLt
    have h : (fieldOp w).toNat = 15 := by
      simp only [imp_false] at *
      omega
    exact .familyF (hop 0xF#4 h) rfl

/-! ### The narrowed families: the word of their answer -/

section Families
variable {w : Word} {x y : RegIx} {n : BitVec 4} {nn : Byte} {i : Instr}

/-- One row of a narrowed family's table: where the field is the row's value c, the answer's word holds c in that field. -/
theorem encode_of_ite {m : Nat} {a c : BitVec m} {j : Instr} {o : Option Instr} (word : BitVec m → Word)
    (hj : encode j = word c) (ho : o = some i → encode i = word a) :
    (if a = c then some j else o) = some i → encode i = word a := by
  split_ifs with ha
  · intro h
    cases h
    rw [hj, ha]
  · exact ho

theorem encode_of_decodeFamily0 : decodeFamily0 w = some i → encode i = w := by
  unfold decodeFamily0
  iterate 2 refine encode_of_ite id rfl ?_
  exact nofun

theorem encode_of_decodeFamily5 (h : decodeFamily5 x y n.toNat = some i) : encode i = wordXY 0x5#4 x y n := by
  unfold decodeFamily5 at h
  split at h <;> cases h
  all_goals exact congrArg (wordXY _ x y) (BitVec.eq_of_toNat_eq (Eq.symm ‹_›))

theorem encode_of_decodeFamily8 (h : decodeFamily8 x y n.toNat = some i) : encode i = wordXY 0x8#4 x y n := by
  unfold decodeFamily8 at h
  split at h <;> cases h
  all_goals exact congrArg (wordXY _ x y) (BitVec.eq_of_toNat_eq (Eq.symm ‹_›))

theorem encode_of_decodeFamily9 (h : decodeFamily9 x y n.toNat = some i) : encode i = wordXY 0x9#4 x y n := by
  unfold decodeFamily9 at h
  split at h <;> cases h
  all_goals exact congrArg (wordXY _ x y) (BitVec.eq_of_toNat_eq (Eq.symm ‹_›))

theorem encode_of_decodeFamilyE : decodeFamilyE x nn = some i → encode i = wordXB 0xE#4 x nn := by
  unfold decodeFamilyE
  iterate 2 refine encode_of_ite (wordXB 0xE#4 x) rfl ?_
  exact nofun

theorem encode_of_decodeFamilyF : decodeFamilyF x nn = some i → encode i = wordXB 0xF#4 x nn := by
  unfold decodeFamilyF
  iterate 10 refine encode_of_ite (wordXB 0xF#4 x) rfl ?_
  exact nofun

/-- The word of the decoder's answer is the word it was given. -/
theorem DecodeRow.encode_eq (h : DecodeRow w (some i)) : encode i = w := by
  cases h with
  | plain j _ hj ho => cases ho; exact hj
  | family0 _ ho => exact encode_of_decodeFamily0 ho.symm
  | family5 hop ho => exact (encode_of_decodeFamily5 ho.symm).trans (wordXY_of_fieldOp hop)
  | family8 hop ho => exact (encode_of_decodeFamily8 ho.symm).trans (wordXY_of_fieldOp hop)
  | family9 hop ho => exact (encode_of_decodeFamily9 ho.symm).trans (wordXY_of_fieldOp hop)
  | familyE hop ho => exact (encode_of_decodeFamilyE ho.symm).trans (wordXB_of_fieldOp hop)
  | familyF hop ho => exact (encode_of_decodeFamilyF ho.symm).trans (wordXB_of_fieldOp hop)

end Families

/-- Settles O3: in every row of the case table the answer's word is put together from the fields of w. -/
theorem encodeOfDecode : Obligations.EncodeOfDecode := by
  unfold Obligations.EncodeOfDecode
  intro w i h
  exact (decode_eq_ok.1 h ▸ decodeFields_row w).encode_eq

/-! ### The narrowed families: the words they answer for -/

section Supported
variable {w : Word}

theorem supportedWord_of_op0 (h : fieldOp w = 0x0#4) : supportedWord w = supportedFamily0 w.toNat := by
  have h4096 : w.toNat / 4096 = 0 := toNat_div_of_fieldOp h
  simp (disch := omega) only [supportedWord, if_pos]

theorem supportedWord_of_op5 (h : fieldOp w = 0x5#4) : supportedWord w = supportedFamily59 w.toNat := by
  have h4096 : w.toNat / 4096 = 5 := toNat_div_of_fieldOp h
  simp (disch := omega) only [supportedWord, if_pos, if_neg]

theorem supportedWord_of_op8 (h : fieldOp w = 0x8#4) : supportedWord w = supportedFamily8 w.toNat := by
  have h4096 : w.toNat / 4096 = 8 := toNat_div_of_fieldOp h
  simp (disch := omega) only [supportedWord, if_pos, if_neg]

theorem supportedWord_of_op9 (h : fieldOp w = 0x9#4) : supportedWord w = supportedFamily59 w.toNat := by
  have h4096 : w.toNat / 4096 = 9 := toNat_div_of_fieldOp h
  simp (disch := omega) only [supportedWord, if_pos, if_neg]

theorem supportedWord_of_opE (h : fieldOp w = 0xE#4) : supportedWord w = supportedFamilyE w.toNat := by
  have h4096 : w.toNat / 4096 = 14 := toNat_div_of_fieldOp h
  simp (disch := omega) only [supportedWord, if_pos, if_neg]

theorem supportedWord_of_opF (h : fieldOp w = 0xF#4) : supportedWord w = supportedFamilyF w.toNat := by
  have h4096 : w.toNat / 4096 = 15 := toNat_div_of_fieldOp h
  simp (disch := omega) only [supportedWord, if_neg]

theorem isSome_decodeFamily0 (w : Word) : (decodeFamily0 w).isSome = supportedFamily0 w.toNat := by
  unfold decodeFamily0 supportedFamily0
  split_ifs <;> simp_all [← BitVec.toNat_inj]

theorem isSome_decodeFamily5 (x y : RegIx) (w : Word) :
    (decodeFamily5 x y (fieldN w).toNat).isSome = supportedFamily59 w.toNat := by
  rw [toNat_fieldN, supportedFamily59]
  have hn : w.toNat % 16 < 16 := Nat.mod_lt _ (by decide)
  interval_cases w.toNat % 16 <;> rfl

theorem isSome_decodeFamily8 (x y : RegIx) (w : Word) :
    (decodeFamily8 x y (fieldN w).toNat).isSome = supportedFamily8 w.toNat := by
  rw [toNat_fieldN, supportedFamily8]
  have hn : w.toNat % 16 < 16 := Nat.mod_lt _ (by decide)
  interval_cases w.toNat % 16 <;> rfl

theorem isSome_decodeFamily9 (x y : RegIx) (w : Word) :
    (decodeFamily9 x y (fieldN w).toNat).isSome = supportedFamily59 w.toNat := by
  rw [toNat_fieldN, supportedFamily59]
  have hn : w.toNat % 16 < 16 := Nat.mod_lt _ (by decide)
  interval_cases w.toNat % 16 <;> rfl

/-- One row of a table on NN: it answers for its value c, which the list of supported values then names. -/
theorem isSome_ite_some {nn c : Byte} {i : Instr} {o : Option Instr} {l : List Nat}
    (ho : o.isSome = l.contains nn.toNat) :
    (if nn = c then some i else o).isSome = (c.toNat :: l).contains nn.toNat := by
  rw [List.contains_cons]
  split_ifs with hc
  · simp [hc]
  · have hn : nn.toNat ≠ c.toNat := mt BitVec.eq_of_toNat_eq hc
    simp [hn, ho]

theorem isSome_decodeFamilyE (x : RegIx) (w : Word) :
    (decodeFamilyE x (fieldNN w)).isSome = supportedFamilyE w.toNat := by
  rw [supportedFamilyE, ← toNat_fieldNN, decodeFamilyE]
  iterate 2 refine isSome_ite_some ?_
  rfl

theorem isSome_decodeFamilyF (x : RegIx) (w : Word) :
    (decodeFamilyF x (fieldNN w)).isSome = supportedFamilyF w.toNat := by
  rw [supportedFamilyF, ← toNat_fieldNN, decodeFamilyF]
  iterate 10 refine isSome_ite_some ?_
  rfl

/-- The decoder answers exactly for the words outside the table of R96. -/
theorem DecodeRow.isSome_eq {o : Option Instr} (h : DecodeRow w o) : o.isSome = supportedWord w := by
  cases h with
  | plain i hop _ ho => rw [ho, Laws.supported_of_op hop]; rfl
  | family0 hop ho => rw [ho, supportedWord_of_op0 hop, isSome_decodeFamily0]
  | family5 hop ho => rw [ho, supportedWord_of_op5 hop, isSome_decodeFamily5]
  | family8 hop ho => rw [ho, supportedWord_of_op8 hop, isSome_decodeFamily8]
  | family9 hop ho => rw [ho, supportedWord_of_op9 hop, isSome_decodeFamily9]
  | familyE hop ho => rw [ho, supportedWord_of_opE hop, isSome_decodeFamilyE]
  | familyF hop ho => rw [ho, supportedWord_of_opF hop, isSome_decodeFamilyF]

end Supported

/-- Settles O4: row by row of the case table, the decoder answers for a word exactly when R96's row of its family does not
list it. -/
theorem decodeExactlySupported : Obligations.DecodeExactlySupported := by
  unfold Obligations.DecodeExactlySupported
  intro w
  rw [← (decodeFields_row w).isSome_eq]
  refine ⟨?_, ?_⟩
  · simp only [Option.isSome_iff_exists, decode_eq_ok]
  · rw [Option.isSome_eq_false_iff, Option.isNone_iff_eq_none, decode_eq_unsupported]

/-- Settles O1: the nine words, decoded. -/
theorem specWordsDecode : Obligations.SpecWordsDecode := by
  unfold Obligations.SpecWordsDecode
  decide

end Sys2Proof
end

section
/-! The step from the fetched word (30_encoding R91, R100–R102): what a failed fetch and a decoded word make of it, and its
end in the numbers of R333. -/

namespace Sys2Proof.Machine

section Step
variable {s : State}

theorem step_of_fetchWord_error {f : Fault} (h : s.fetchWord = .error f) : step s = .fault f := by
  rw [step, State.fetchInstr, h]
  rfl

theorem step_of_fetchInstr_ok {i : Instr} (h : s.fetchInstr = .ok i) : step s = finishStep (exec i s) := by
  rw [step, h]

theorem State.fetchInstr_of_decode {i : Instr} (hp : s.pc.toNat ≤ 0xFFE)
    (hd : decode (wordOfBytes (s.mem.byteAt s.pc.toNat) (s.mem.byteAt (s.pc.toNat + 1))) = .ok i) :
    s.fetchInstr = .ok i := by
  rw [State.fetchInstr, State.fetchWord_of_le hp]
  dsimp only
  rw [hd]

end Step

theorem countDown_eq_ofNat (t : Byte) : countDown t = BitVec.ofNat 8 (t.toNat - 1) := by
  rw [← toNat_countDown, BitVec.ofNat_toNat, BitVec.setWidth_eq]

/-- The end of a step, in the numbers of R333. -/
theorem State.endStep_eq (t : State) : t.endStep =
    { t with
      sound := t.sound || decide (t.st.toNat = 1)
      dt := BitVec.ofNat 8 (t.dt.toNat - 1)
      st := BitVec.ofNat 8 (t.st.toNat - 1)
      rndIn := none
      drawIndex := t.drawIndex + 1 } := by
  have hst : (t.st == 1) = decide (t.st.toNat = 1) := decide_eq_decide.2 BitVec.toNat_inj.symm
  rw [State.endStep, State.tick, countDown_eq_ofNat, countDown_eq_ofNat, hst]

/-- Settles O6: the bounds check of the fetch names the lowest failing address, and the two bytes make a big-endian word. -/
theorem fetchRule : Obligations.FetchRule := by
  unfold Obligations.FetchRule
  refine fun s => ⟨fun hp => ?_, fun hp => ?_⟩
  · have hmax : max s.pc.toNat 4096 = if 0xFFF < s.pc.toNat then s.pc.toNat else s.pc.toNat + 1 := by
      split_ifs <;> omega
    rw [step_of_fetchWord_error (State.fetchWord_of_gt (by omega)), hmax]
  · exact ⟨_, State.fetchWord_of_le (by omega), toNat_wordOfBytes _ _⟩

/-- Settles O7: the step is the decoded instruction's answer, and the end of the step is the tick. -/
theorem stepRunsDecoded : Obligations.StepRunsDecoded := by
  unfold Obligations.StepRunsDecoded
  intro s i hp hd
  have hstep : step s = finishStep (exec i s) := step_of_fetchInstr_ok (State.fetchInstr_of_decode hp hd)
  refine ⟨fun t hx => ?_, fun f hx => ?_⟩
  · rw [hstep, hx, finishStep, State.endStep_eq]
  · rw [hstep, hx, finishStep]

end Sys2Proof.Machine
end

section
/-! What an instruction that writes registers alone, or pc alone, can do, said once for each of the shared operations
`writeReg`, `writeRegFlag` and `skip`: the next state, its pc and its frame. -/

namespace Sys2Proof.Machine

theorem writeReg_next (s : State) (x : RegIx) (b : Byte) :
    ∃ t, writeReg s x b = .next t ∧ t.reg x = b ∧ t.pc = s.pc + 2 ∧ OnlyRegs s t [x] := by
  refine ⟨_, rfl, s.reg_setReg_self x b, rfl, rfl, fun r hr => ?_, fun _ => rfl⟩
  exact s.reg_setReg_of_ne b (List.ne_of_not_mem_cons hr)

theorem writeRegFlag_next (s : State) (x : RegIx) (b f : Byte) :
    ∃ t, writeRegFlag s x b f = .next t ∧ (x ≠ vf → t.reg x = b) ∧ t.reg vf = f ∧ t.pc = s.pc + 2 ∧
      OnlyRegs s t [x, vf] := by
  refine ⟨_, rfl, fun hx => ?_, s.reg_setRegFlag_vf x b f, rfl, rfl, fun r hr => ?_, fun _ => rfl⟩
  · rw [State.reg_advance, State.reg_setRegFlag, if_neg hx, if_pos rfl]
  · obtain ⟨hx, hvf⟩ : r ≠ x ∧ r ≠ vf := by simpa using hr
    rw [State.reg_advance, State.reg_setRegFlag, if_neg hvf, if_neg hx]

theorem skip_next (s : State) (c : Bool) :
    ∃ t, skip s c = .next t ∧ t.pc = (if c then s.pc + 4 else s.pc + 2) ∧ OnlyPc s t :=
  ⟨_, rfl, rfl, rfl, fun _ _ => rfl, fun _ => rfl⟩

theorem skip_beq_next (s : State) (a b : Byte) :
    ∃ t, skip s (a == b) = .next t ∧ t.pc = (if a = b then s.pc + 4 else s.pc + 2) ∧ OnlyPc s t := by
  simpa only [beq_iff_eq] using skip_next s (a == b)

theorem skip_bne_next (s : State) (a b : Byte) :
    ∃ t, skip s (a != b) = .next t ∧ t.pc = (if a = b then s.pc + 2 else s.pc + 4) ∧ OnlyPc s t := by
  simpa only [bne_iff_ne, ne_eq, ite_not] using skip_next s (a != b)

end Sys2Proof.Machine
end

section
/-! Arithmetic and logic (41_arith_logic R130–R147). The values and the flags as numbers, then the statements, each put
together from the word of its format and the shared operation its arm of `exec` runs. -/

namespace Sys2Proof

/-- A word of format XY, its fixed part first, as the encodings `oXYs` are read. -/
theorem toNat_wordXY_fixed_first (op : BitVec 4) (x y : RegIx) (n : BitVec 4) :
    (wordXY op x y n).toNat = (op.toNat * 4096 + n.toNat) + x.toNat * 256 + y.toNat * 16 := by
  rw [toNat_wordXY]
  omega

end Sys2Proof

namespace Sys2Proof.Machine

/-! ### Values and flags -/

theorem toNat_sub_byte (a b : Byte) : (a - b).toNat = (a.toNat + 256 - b.toNat) % 256 := by
  rw [BitVec.toNat_sub]
  omega

theorem toNat_shiftRight_one (a : Byte) : (a >>> 1).toNat = a.toNat / 2 := by
  rw [BitVec.toNat_ushiftRight, Nat.shiftRight_eq_div_pow, pow_one]

theorem toNat_shiftLeft_one (a : Byte) : (a <<< 1).toNat = a.toNat * 2 % 256 := by
  rw [BitVec.toNat_shiftLeft, Nat.shiftLeft_eq, pow_one]

theorem toNat_flagByte_decide (p : Prop) [Decidable p] : (flagByte (decide p)).toNat = if p then 1 else 0 := by
  by_cases hp : p <;> simp [flagByte, hp]

theorem toNat_carryFlag (a b : Byte) : (carryFlag a b).toNat = if a.toNat + b.toNat > 255 then 1 else 0 :=
  toNat_flagByte_decide _

theorem toNat_greaterFlag (a b : Byte) : (greaterFlag a b).toNat = if a.toNat > b.toNat then 1 else 0 :=
  toNat_flagByte_decide _

theorem toNat_and_one (a : Byte) : (a &&& 0x01).toNat = a.toNat % 2 :=
  Nat.and_one_is_mod a.toNat

theorem toNat_shrFlag (a : Byte) : (shrFlag a).toNat = a.toNat % 2 := toNat_and_one a

/-- Bit 7 moved to bit 0. -/
theorem toNat_shlFlag_normalised (a : Byte) : (shlFlag true a).toNat = a.toNat / 128 := by
  have hmod : (shlFlag true a).toNat = a.toNat / 128 % 2 := by
    rw [shlFlag, if_pos rfl, toNat_and_one, BitVec.toNat_ushiftRight, Nat.shiftRight_eq_div_pow]
  omega

/-- Bit 7 masked in place. -/
theorem toNat_shlFlag_masked (a : Byte) : (shlFlag false a).toNat = a.toNat / 128 * 128 := by
  have hmask : (shlFlag false a).toNat = a.toNat / 2 ^ 7 % 2 * 2 ^ 7 :=
    calc (shlFlag false a).toNat
      _ = a.toNat &&& 2 ^ 7 := rfl
      _ = a.toNat / 2 ^ 7 % 2 * 2 ^ 7 := by rw [Nat.and_two_pow, Nat.toNat_testBit]
  omega

theorem toNat_shlFlag (n : Bool) (a : Byte) :
    (shlFlag n a).toNat = if n = true then a.toNat / 128 else a.toNat / 128 * 128 := by
  cases n with
  | true => exact toNat_shlFlag_normalised a
  | false => exact toNat_shlFlag_masked a

/-- A presented byte is the one drawn (log 6). -/
theorem State.drawRnd_of_some {s : State} {r : Byte} (h : s.rndIn = some r) : s.drawRnd = r := by
  rw [State.drawRnd, h, Option.getD_some]

/-! ### Results without a flag -/

/-- Settles O23: the value written is NN. -/
theorem loadImmediate : Obligations.LoadImmediate := by
  unfold Obligations.LoadImmediate
  exact fun x nn s => ⟨toNat_wordXB _ x nn, writeReg_next s x nn⟩

/-- Settles O24: the value written is the 8-bit sum, and VX is the only register written. -/
theorem addImmediate : Obligations.AddImmediate := by
  unfold Obligations.AddImmediate
  intro x nn s
  obtain ⟨t, ht, hx, hrest⟩ := writeReg_next s x (s.reg x + nn)
  exact ⟨toNat_wordXB _ x nn, t, ht, by rw [hx, BitVec.toNat_add], hrest⟩

/-- Settles O25: the value written is VY's. -/
theorem copyRegister : Obligations.CopyRegister := by
  unfold Obligations.CopyRegister
  exact fun x y s => ⟨toNat_wordXY_fixed_first _ x y _, writeReg_next s x (s.reg y)⟩

/-- Settles O26: each value written is read bit by bit. -/
theorem bitwiseOperations : Obligations.BitwiseOperations := by
  unfold Obligations.BitwiseOperations
  intro x y s
  refine ⟨toNat_wordXY_fixed_first _ x y _, toNat_wordXY_fixed_first _ x y _, toNat_wordXY_fixed_first _ x y _,
    ?_, ?_, ?_⟩
  · obtain ⟨t, ht, hx, hrest⟩ := writeReg_next s x (s.reg x ||| s.reg y)
    exact ⟨t, ht, fun k => by rw [hx, BitVec.getLsbD_or], hrest⟩
  · obtain ⟨t, ht, hx, hrest⟩ := writeReg_next s x (s.reg x &&& s.reg y)
    exact ⟨t, ht, fun k => by rw [hx, BitVec.getLsbD_and], hrest⟩
  · obtain ⟨t, ht, hx, hrest⟩ := writeReg_next s x (s.reg x ^^^ s.reg y)
    exact ⟨t, ht, fun k => by rw [hx, BitVec.getLsbD_xor], hrest⟩

/-- Settles O31: the value written is the drawn byte AND NN, and a bit that NN clears is 0 whatever was drawn. -/
theorem randomByte : Obligations.RandomByte := by
  unfold Obligations.RandomByte
  intro x nn s
  obtain ⟨t, ht, hx, hrest⟩ := writeReg_next s x (s.drawRnd &&& nn)
  refine ⟨toNat_wordXB _ x nn, t, ht, fun r hr => ?_, fun k hk => ?_, hrest⟩
  · rw [hx, State.drawRnd_of_some hr]
  · rw [hx, BitVec.getLsbD_and, hk, Bool.and_false]

/-! ### Results with a flag, written last (D8) -/

/-- Settles O27: the 8-bit sum, then the carry. -/
theorem addRegisters : Obligations.AddRegisters := by
  unfold Obligations.AddRegisters
  intro x y s
  obtain ⟨t, ht, hx, hvf, hrest⟩ := writeRegFlag_next s x (s.reg x + s.reg y) (carryFlag (s.reg x) (s.reg y))
  refine ⟨toNat_wordXY_fixed_first _ x y _, t, ht, fun hne => ?_, ?_, hrest⟩
  · rw [hx hne, BitVec.toNat_add]
  · rw [hvf, toNat_carryFlag]

/-- The 8-bit difference of two bytes, then their strict comparison (R138, R140). -/
theorem writeRegFlag_sub_next (s : State) (x : RegIx) (a b : Byte) :
    ∃ t, writeRegFlag s x (a - b) (greaterFlag a b) = .next t ∧
      (x ≠ vf → (t.reg x).toNat = (a.toNat + 256 - b.toNat) % 256) ∧
      (t.reg vf).toNat = (if a.toNat > b.toNat then 1 else 0) ∧ t.pc = s.pc + 2 ∧ OnlyRegs s t [x, vf] := by
  obtain ⟨t, ht, hx, hvf, hrest⟩ := writeRegFlag_next s x (a - b) (greaterFlag a b)
  refine ⟨t, ht, fun hne => ?_, ?_, hrest⟩
  · rw [hx hne, toNat_sub_byte]
  · rw [hvf, toNat_greaterFlag]

/-- Settles O28: both are one subtraction, with the operands exchanged. -/
theorem subtractRegisters : Obligations.SubtractRegisters := by
  unfold Obligations.SubtractRegisters
  exact fun x y s => ⟨toNat_wordXY_fixed_first _ x y _, toNat_wordXY_fixed_first _ x y _,
    writeRegFlag_sub_next s x (s.reg x) (s.reg y), writeRegFlag_sub_next s x (s.reg y) (s.reg x)⟩

/-- Settles O29: the arm of 8XY6 does not use Y; it writes half of VX, then the bit shifted out. -/
theorem shiftRight : Obligations.ShiftRight := by
  unfold Obligations.ShiftRight
  intro x y s
  obtain ⟨t, ht, hx, hvf, hrest⟩ := writeRegFlag_next s x (s.reg x >>> 1) (shrFlag (s.reg x))
  refine ⟨toNat_wordXY_fixed_first _ x y _, fun _ => rfl, t, ht, fun hne => ?_, ?_, hrest⟩
  · rw [hx hne, toNat_shiftRight_one]
  · rw [hvf, toNat_shrFlag]

/-- Settles O30: the arm of 8XYE does not use Y; it writes twice VX, then bit 7 in the form the switch chooses. -/
theorem shiftLeft : Obligations.ShiftLeft := by
  unfold Obligations.ShiftLeft
  intro x y s
  obtain ⟨t, ht, hx, hvf, hrest⟩ :=
    writeRegFlag_next s x (s.reg x <<< 1) (shlFlag s.cfg.shlFlagNormalised (s.reg x))
  refine ⟨toNat_wordXY_fixed_first _ x y _, fun _ => rfl, t, ht, fun hne => ?_, ?_, hrest⟩
  · rw [hx hne, toNat_shiftLeft_one]
  · rw [hvf, toNat_shlFlag]

/-! ### Skips -/

/-- Settles O32: one skip on VX = NN, one on VX ≠ NN. -/
theorem immediateSkips : Obligations.ImmediateSkips := by
  unfold Obligations.ImmediateSkips
  exact fun x nn s => ⟨toNat_wordXB _ x nn, toNat_wordXB _ x nn, skip_beq_next s (s.reg x) nn,
    skip_bne_next s (s.reg x) nn⟩

/-- Settles O33: one skip on VX = VY, one on VX ≠ VY. -/
theorem registerSkips : Obligations.RegisterSkips := by
  unfold Obligations.RegisterSkips
  exact fun x y s => ⟨toNat_wordXY_fixed_first _ x y _, toNat_wordXY_fixed_first _ x y _,
    skip_beq_next s (s.reg x) (s.reg y), skip_bne_next s (s.reg x) (s.reg y)⟩

end Sys2Proof.Machine
end

section
/-! Control transfer (42_control_flow R180–R184): the targets as numbers, and what a jump, a call and a return answer. A
return after a call is put together from the statements about each. -/

namespace Sys2Proof.Machine

theorem toNat_zextAddr (nnn : BitVec 12) : (zextAddr nnn).toNat = nnn.toNat :=
  BitVec.toNat_setWidth_of_le (by decide)

/-- `NNN + V0` is exact: the largest sum, 0xFFF + 0xFF, is below 2^16 (42_control_flow R184). -/
theorem toNat_offsetAddr (nnn : BitVec 12) (b : Byte) : (offsetAddr nnn b).toNat = nnn.toNat + b.toNat := by
  simp only [offsetAddr, BitVec.toNat_add, BitVec.toNat_setWidth]
  omega

theorem State.onlyPc_goto (s : State) (w : Word) : OnlyPc s (s.goto w) := ⟨rfl, fun _ _ => rfl, fun _ => rfl⟩

theorem exec_call (nnn : BitVec 12) (s : State) :
    exec (.call nnn) s = pushThen s (s.pc + 2) fun t => .next (t.goto (zextAddr nnn)) := rfl

theorem exec_ret (s : State) : exec .ret s = popThen s fun v t => .next (t.goto v) := rfl

section Answers
variable {s : State}

theorem exec_call_of_lt (nnn : BitVec 12) (h : s.sp.val < 16) :
    exec (.call nnn) s =
      .next ({ s with stack := s.stack.set s.sp.val (s.pc + 2) h, sp := ⟨s.sp.val + 1, Nat.succ_lt_succ h⟩ }.goto
        (zextAddr nnn)) := by
  rw [exec_call, pushThen_of_lt _ _ h]

theorem exec_call_of_full (nnn : BitVec 12) (h : s.sp.val = 16) : exec (.call nnn) s = .fault .stackOverflow := by
  rw [exec_call, pushThen_of_full _ _ h]

/-- A return from depth k + 1, in the terms of the entry it pops. -/
theorem exec_ret_of_succ {k : Fin 16} (h : s.sp.val = k.val + 1) :
    exec .ret s = .next ({ s with sp := k.castSucc }.goto s.stack[k.val]) := by
  have hk : s.sp.val - 1 = k.val := by omega
  rw [exec_ret, popThen_of_pos _ (by omega)]
  simp only [hk]
  rfl

theorem exec_ret_of_empty (h : s.sp.val = 0) : exec .ret s = .fault .stackUnderflow := by
  rw [exec_ret, popThen_of_empty _ h]

end Answers

/-- Settles O35: both targets are exact, and a jump writes pc alone. -/
theorem jumps : Obligations.Jumps := by
  unfold Obligations.Jumps
  exact fun nnn s => ⟨toNat_wordA _ nnn, toNat_wordA _ nnn, ⟨_, rfl, toNat_zextAddr nnn, s.onlyPc_goto _⟩,
    ⟨_, rfl, toNat_offsetAddr nnn (s.reg 0), s.onlyPc_goto _⟩⟩

/-- Settles O36: the push writes the entry at the old depth alone, and a full stack takes none. -/
theorem callPushes : Obligations.CallPushes := by
  unfold Obligations.CallPushes
  refine fun nnn s => ⟨toNat_wordA _ nnn, fun k hk => ?_, exec_call_of_full nnn⟩
  have hlt : s.sp.val < 16 := hk ▸ k.isLt
  refine ⟨_, exec_call_of_lt nnn hlt, toNat_zextAddr nnn, congrArg (· + 1) hk, ?_, fun j hj => ?_, rfl,
    fun _ _ => rfl, fun _ => rfl⟩
  · simp [hk]
  · have hne : s.sp.val ≠ j.val := fun hsp => hj (Fin.ext (hsp.symm.trans hk))
    exact Vector.getElem_set_ne hlt j.isLt hne

/-- Settles O37: the popped entry goes to pc as it stands (D7), and an empty stack has none (D47). -/
theorem returnPops : Obligations.ReturnPops := by
  unfold Obligations.ReturnPops
  exact ⟨rfl, fun s => ⟨fun k hk => ⟨_, exec_ret_of_succ hk, rfl, rfl, rfl, fun _ _ => rfl, fun _ => rfl⟩,
    exec_ret_of_empty⟩⟩

/-- Settles O38: the return pops the entry the call pushed (O36, O37), and neither writes an older one. -/
theorem returnUndoesCall : Obligations.ReturnUndoesCall := by
  unfold Obligations.ReturnUndoesCall
  intro nnn s hlt
  obtain ⟨-, hcall, -⟩ := callPushes nnn s
  obtain ⟨t, ht, -, hsp, htop, holder, -⟩ := hcall ⟨s.sp.val, hlt⟩ rfl
  refine ⟨t, ht, fun c hstack hdepth => ?_⟩
  obtain ⟨hret, -⟩ := returnPops.2 c
  obtain ⟨u, hu, hpc, husp, hframe, -⟩ := hret ⟨s.sp.val, hlt⟩ (by rw [hdepth, hsp])
  have hustack : u.stack = t.stack := by rw [hframe, ← hstack]
  refine ⟨u, hu, ?_, Fin.ext husp, fun k hk => ?_⟩
  · simpa only [hpc, hstack] using htop
  · simpa only [hustack] using holder k (Fin.ne_of_lt hk)

end Sys2Proof.Machine
end

section
/-! Extended instructions (43_extended R200–R207): a relational skip supplied or not, the two bytes of a product, division,
a store from I and the decimal digits it stores, and an FX94 effect's writes. Then the statements. -/

namespace Sys2Proof

/-- A word of format XB, its fixed part first, as the encodings `oXnn` are read. -/
theorem toNat_wordXB_fixed_first (op : BitVec 4) (x : RegIx) (nn : Byte) :
    (wordXB op x nn).toNat = (op.toNat * 4096 + nn.toNat) + x.toNat * 256 := by
  rw [toNat_wordXB, Nat.add_right_comm]

end Sys2Proof

namespace Sys2Proof.Machine

/-! ### Relational skips -/

section RelSkip
variable {s : State} (f : Config.RelSkip → List (Byte × Byte)) (reason : Reason) (x y : RegIx)

/-- A supplied relation skips where its pairs hold the two operands. -/
theorem relSkip_of_some {c : Config.RelSkip} (h : s.cfg.relSkipCond = some c) :
    ∃ t, relSkip s (s.cfg.relSkipCond.map f) reason x y = .next t ∧
      t.pc = (if (s.reg x, s.reg y) ∈ f c then s.pc + 4 else s.pc + 2) ∧ OnlyPc s t := by
  have hskip : relSkip s (s.cfg.relSkipCond.map f) reason x y = skip s ((f c).contains (s.reg x, s.reg y)) := by
    rw [h]
    rfl
  simpa only [hskip, List.contains_iff_mem] using skip_next s ((f c).contains (s.reg x, s.reg y))

theorem relSkip_of_none (h : s.cfg.relSkipCond = none) :
    relSkip s (s.cfg.relSkipCond.map f) reason x y = .fault (.unmodelled reason) := by
  rw [h]
  rfl

end RelSkip

/-- Settles O34: the three skips are one operation, each with its relation and its reason. -/
theorem relationalSkips : Obligations.RelationalSkips := by
  unfold Obligations.RelationalSkips
  refine fun x y s => ⟨toNat_wordXY_fixed_first _ x y _, toNat_wordXY_fixed_first _ x y _,
    toNat_wordXY_fixed_first _ x y _, fun c hc => ⟨?_, ?_, ?_⟩, fun hc => ⟨?_, ?_, ?_⟩⟩
  · exact relSkip_of_some (·.rel1) .relSkip1 x y hc
  · exact relSkip_of_some (·.rel2) .relSkip2 x y hc
  · exact relSkip_of_some (·.rel3) .relSkip3 x y hc
  · exact relSkip_of_none (·.rel1) .relSkip1 x y hc
  · exact relSkip_of_none (·.rel2) .relSkip2 x y hc
  · exact relSkip_of_none (·.rel3) .relSkip3 x y hc

/-! ### Product and quotient -/

theorem toNat_productLow (a b : Byte) : (productLow a b).toNat = a.toNat * b.toNat % 256 := by
  rw [productLow, BitVec.toNat_ofNat]
  omega

/-- The product of two bytes is below 2^16, so its high byte loses nothing. -/
theorem toNat_productHigh (a b : Byte) : (productHigh a b).toNat = a.toNat * b.toNat / 256 := by
  have hlt : a.toNat * b.toNat < 256 * 256 := Nat.mul_lt_mul'' a.isLt b.isLt
  rw [productHigh, BitVec.toNat_ofNat]
  omega

theorem exec_mul (x y : RegIx) (s : State) :
    exec (.mul x y) s =
      writeRegFlag s x (productSplit s.cfg.mulHighTo (s.reg x) (s.reg y)).1
        (productSplit s.cfg.mulHighTo (s.reg x) (s.reg y)).2 := rfl

/-- Settles O39: the two bytes of the product, in the order the configuration gives. -/
theorem multiply : Obligations.Multiply := by
  unfold Obligations.Multiply
  intro x y s
  obtain ⟨t, ht, hx, hvf, hrest⟩ := writeRegFlag_next s x (productSplit s.cfg.mulHighTo (s.reg x) (s.reg y)).1
    (productSplit s.cfg.mulHighTo (s.reg x) (s.reg y)).2
  refine ⟨toNat_wordXY_fixed_first _ x y _, t, (exec_mul x y s).trans ht, fun hto => ⟨fun hne => ?_, ?_⟩,
    fun hto => ⟨fun hne => ?_, ?_⟩, hrest⟩
  · rw [hx hne, hto, productSplit, toNat_productLow]
  · rw [hvf, hto, productSplit, toNat_productHigh]
  · rw [hx hne, hto, productSplit, toNat_productHigh]
  · rw [hvf, hto, productSplit, toNat_productLow]

section Div
variable {s : State} {y : RegIx} (x : RegIx)

theorem exec_div_of_ne_zero (h : (s.reg y).toNat ≠ 0) :
    exec (.div x y) s = writeRegFlag s x (s.reg x / s.reg y) (s.reg x % s.reg y) :=
  if_neg fun h0 => h (congrArg BitVec.toNat h0)

theorem exec_div_of_zero (h : (s.reg y).toNat = 0) : exec (.div x y) s = .fault .divideByZero :=
  if_pos (BitVec.eq_of_toNat_eq h)

end Div

/-- Settles O40: quotient, then remainder, where VY is not 0. -/
theorem divide : Obligations.Divide := by
  unfold Obligations.Divide
  refine fun x y s => ⟨toNat_wordXY_fixed_first _ x y _, fun hy => ?_, exec_div_of_zero x⟩
  obtain ⟨t, ht, hx, hvf, hrest⟩ := writeRegFlag_next s x (s.reg x / s.reg y) (s.reg x % s.reg y)
  refine ⟨t, (exec_div_of_ne_zero x hy).trans ht, fun hne => ?_, ?_, hrest⟩
  · rw [hx hne, BitVec.toNat_udiv]
  · rw [hvf, BitVec.toNat_umod]

/-! ### A store from I -/

/-- Bytes stored from I inside memory, then pc + 2: the bytes read back, and nothing else is written. -/
theorem writeThen_advance_next {s : State} {bs : List Byte} (h : s.i.toNat + bs.length ≤ 4096) :
    ∃ t, writeThen s s.i.toNat bs (fun u => .next u.advance) = .next t ∧
      (s.mem.wf = true → ∀ k (hk : k < bs.length), t.mem.byteAt (s.i.toNat + k) = bs[k]) ∧
      t.pc = s.pc + 2 ∧ OnlyMem s t s.i.toNat bs.length := by
  refine ⟨_, writeThen_of_le _ (.inr h), fun hwf k hk => ?_, rfl, rfl, fun _ _ => rfl, fun a ha => ?_⟩
  · exact Memory.byteAt_writeBytes_of_inside hwf h hk
  · exact Memory.byteAt_writeBytes_of_outside s.mem bs ha

/-! ### Decimal digits -/

theorem length_bcd5 (v : Nat) : (bcd5 v).length = 5 := rfl

theorem toNat_digit (v place : Nat) : (digit v place).toNat = v / place % 10 := by
  rw [digit, BitVec.toNat_ofNat]
  omega

theorem toNat_digit_le (v place : Nat) : (digit v place).toNat ≤ 9 := by
  rw [toNat_digit]
  omega

/-- A number below 100000 is put together from its five digits. -/
theorem eq_sum_digits {v : Nat} (h : v < 100000) :
    v = 10000 * (digit v 10000).toNat + 1000 * (digit v 1000).toNat + 100 * (digit v 100).toNat +
      10 * (digit v 10).toNat + (digit v 1).toNat := by
  simp only [toNat_digit]
  omega

section Pair
variable {p : Config.Bcd16Pair} (a b : Byte)

theorem pairValue_of_vxHi (h : p = .vxHi) : pairValue p a b = a.toNat * 256 + b.toNat := by rw [h, pairValue]

theorem pairValue_of_vyHi (h : p = .vyHi) : pairValue p a b = b.toNat * 256 + a.toNat := by rw [h, pairValue]

theorem pairValue_lt : pairValue p a b < 65536 := by
  cases p with
  | vxHi => rw [pairValue_of_vxHi a b rfl]; omega
  | vyHi => rw [pairValue_of_vyHi a b rfl]; omega

end Pair

theorem exec_bcd16 (x y : RegIx) (s : State) :
    exec (.bcd16 x y) s =
      writeThen s s.i.toNat (bcd5 (pairValue s.cfg.bcd16Pair (s.reg x) (s.reg y))) fun t => .next t.advance := rfl

/-- Settles O41: the five bytes stored are the digits of the pair's value, which is below 2^16. -/
theorem bcd16Stores : Obligations.Bcd16Stores := by
  unfold Obligations.Bcd16Stores
  refine fun x y s => ⟨toNat_wordXY_fixed_first _ x y _, fun hi => ?_, fun hi => ?_⟩
  · have hlt : pairValue s.cfg.bcd16Pair (s.reg x) (s.reg y) < 100000 :=
      (pairValue_lt (s.reg x) (s.reg y)).trans (by decide)
    have hsum := eq_sum_digits hlt
    obtain ⟨t, ht, hbytes, hrest⟩ := writeThen_advance_next (s := s)
      (bs := bcd5 (pairValue s.cfg.bcd16Pair (s.reg x) (s.reg y))) (by rw [length_bcd5]; omega)
    refine ⟨t, ht, fun hwf => ⟨_, _, _, _, _, toNat_digit_le _ 10000, toNat_digit_le _ 1000, toNat_digit_le _ 100,
      toNat_digit_le _ 10, toNat_digit_le _ 1, fun hp => (pairValue_of_vxHi _ _ hp).symm.trans hsum,
      fun hp => (pairValue_of_vyHi _ _ hp).symm.trans hsum, ?_⟩, hrest⟩
    have hbyte (k : Nat) (hk : k < 5) := congrArg BitVec.toNat (hbytes hwf k hk)
    exact ⟨hbyte 0 (by decide), hbyte 1 (by decide), hbyte 2 (by decide), hbyte 3 (by decide), hbyte 4 (by decide)⟩
  · rw [exec_bcd16]
    exact writeThen_of_gt _ (by rw [length_bcd5]; decide) (by rw [length_bcd5]; omega)

/-! ### FX94 -/

/-- The last write to a register stands. -/
theorem reg_foldl_setReg_of_last (pre : List (RegIx × Byte)) (r : RegIx) (b : Byte) {post : List (RegIx × Byte)}
    (s : State) (h : ∀ w ∈ post, w.1 ≠ r) :
    ((pre ++ (r, b) :: post).foldl (fun t w => t.setReg w.1 w.2) s).reg r = b := by
  rw [List.foldl_append, List.foldl_cons, reg_foldl_setReg_of_not_mem post _ r h, State.reg_setReg_self]

theorem not_mem_map_fst {ws : List Host.Cell} {a : Nat} (h : ∀ c ∈ ws, c.1 ≠ a) : a ∉ ws.map (·.1) := fun hmem =>
  let ⟨c, hc, he⟩ := List.mem_map.1 hmem
  h c hc he

/-- The last write to an address stands. -/
theorem Memory.byteAt_foldl_writeByte_of_last {pre : List Host.Cell} {a : Nat} {post : List Host.Cell} (b : Byte)
    {m : Memory} (hm : m.wf = true) (hpre : ∀ c ∈ pre, c.1 < 4096) (hpost : ∀ c ∈ post, c.1 ≠ a) :
    Memory.byteAt ((pre ++ (a, b) :: post).foldl (fun m c => Memory.writeByte m c.1 c.2) m) a = b := by
  rw [List.foldl_append, List.foldl_cons, Memory.byteAt_foldl_writeByte_of_not_mem post _ a (not_mem_map_fst hpost)]
  exact Memory.byteAt_writeByte_self b (Memory.wf_foldl_writeByte pre m hm hpre)

theorem State.applyFx94_v (s : State) (e : Config.Fx94Effect) :
    (s.applyFx94 e).v = (e.vWrites.foldl (fun t w => t.setReg w.1 w.2) s).v := by
  unfold State.applyFx94
  cases e.iWrite <;> rfl

theorem State.reg_applyFx94_of_last (s : State) {e : Config.Fx94Effect} {pre : List (RegIx × Byte)} {r : RegIx} {b : Byte}
    {post : List (RegIx × Byte)} (hv : e.vWrites = pre ++ (r, b) :: post) (hpost : ∀ w ∈ post, w.1 ≠ r) :
    (s.applyFx94 e).reg r = b := by
  rw [State.reg_congr (s.applyFx94_v e), hv, reg_foldl_setReg_of_last pre r b s hpost]

theorem State.byteAt_applyFx94_of_not_mem (s : State) {e : Config.Fx94Effect} {a : Nat}
    (h : ∀ c ∈ e.memWrites, c.1 ≠ a) : (s.applyFx94 e).mem.byteAt a = s.mem.byteAt a := by
  rw [State.applyFx94_mem, Memory.byteAt_foldl_writeByte_of_not_mem _ _ a (not_mem_map_fst h)]

theorem State.byteAt_applyFx94_of_last {s : State} {e : Config.Fx94Effect} {pre : List Host.Cell} {a : Nat} {b : Byte}
    {post : List Host.Cell} (hwf : s.mem.wf = true) (hlt : ∀ c ∈ e.memWrites, c.1 < 4096)
    (hm : e.memWrites = pre ++ (a, b) :: post) (hpost : ∀ c ∈ post, c.1 ≠ a) :
    (s.applyFx94 e).mem.byteAt a = b := by
  have hpre : ∀ c ∈ pre, c.1 < 4096 := fun c hc => hlt c (hm ▸ List.mem_append_left _ hc)
  rw [State.applyFx94_mem, hm, Memory.byteAt_foldl_writeByte_of_last b hwf hpre hpost]

/-- A value taken mod 2^`I_BITS` fits in the 16 bits of I. -/
theorem toNat_ofNat_mod_width (n : Nat) (w : Config.IBits) :
    (BitVec.ofNat 16 (n % 2 ^ w.width)).toNat = n % 2 ^ w.width := by
  have hw : w.width ≤ 16 := by cases w <;> decide
  have hlt : n % 2 ^ w.width < 2 ^ 16 :=
    (Nat.mod_lt n (Nat.two_pow_pos w.width)).trans_le (Nat.pow_le_pow_right (by decide) hw)
  rw [BitVec.toNat_ofNat, Nat.mod_eq_of_lt hlt]

section Glyph3
variable {s : State} {x : RegIx}

theorem exec_glyph3_of_none (h : fx94Effect s.cfg.fx94Sem (s.fx94Query x) = none) :
    exec (.glyph3 x) s = .fault (.unmodelled .fx94) := by
  rw [exec, execGlyph3, h]
  rfl

variable {e : Config.Fx94Effect} (he : fx94Effect s.cfg.fx94Sem (s.fx94Query x) = some e)
include he

theorem exec_glyph3_of_inside (h : fx94OutOfBounds e = none) :
    exec (.glyph3 x) s = .next (s.applyFx94 e).advance := by
  simp only [exec, execGlyph3, he, h]

theorem exec_glyph3_of_outside {a : Nat} (h : fx94OutOfBounds e = some a) :
    exec (.glyph3 x) s = .fault (.memoryOutOfBounds a) := by
  simp only [exec, execGlyph3, he, h]
  rfl

end Glyph3

/-- An FX94 effect and pc + 2 write V, I, memory and pc alone. -/
theorem State.advance_applyFx94_eq (s : State) (e : Config.Fx94Effect) :
    (s.applyFx94 e).advance =
      { s with v := (s.applyFx94 e).v, i := (s.applyFx94 e).i, mem := (s.applyFx94 e).mem, pc := s.pc + 2 } := by
  rw [State.advance, State.applyFx94_pc, State.applyFx94_eq]
  rfl

/-- Settles O42: an effect inside memory is applied, each place keeping its last write or its old value; one outside fails
at its first such address. -/
theorem glyphLookup : Obligations.GlyphLookup := by
  unfold Obligations.GlyphLookup
  refine fun x s => ⟨toNat_wordXB_fixed_first _ x _, fun e he => ⟨fun ⟨hreads, hwrites⟩ => ?_,
    fun pre a post hsplit hpre ha => ?_⟩, exec_glyph3_of_none⟩
  · have hlt : ∀ c ∈ e.memWrites, c.1 < 4096 := fun c hc => Nat.lt_succ_of_le (hwrites c hc)
    have hin : fx94OutOfBounds e = none :=
      fx94OutOfBounds_eq_none.2 ⟨fun a ha => Nat.lt_succ_of_le (hreads a ha), hlt⟩
    rw [exec_glyph3_of_inside he hin, s.advance_applyFx94_eq e]
    refine ⟨_, rfl, rfl, rfl, s.reg_applyFx94_of_not_mem e, fun pre r b post hv hpost => ?_, fun hi => ?_,
      fun n hi => ?_, fun a ha => ?_, fun hwf pre a b post hm hpost => ?_⟩
    · exact s.reg_applyFx94_of_last hv hpost
    · rw [State.applyFx94_i, hi, Option.elim_none]
    · rw [State.applyFx94_i, hi, Option.elim_some, toNat_ofNat_mod_width]
    · exact s.byteAt_applyFx94_of_not_mem ha
    · exact State.byteAt_applyFx94_of_last hwf hlt hm hpost
  · exact exec_glyph3_of_outside he
      (fx94OutOfBounds_of_first hsplit (fun b hb => Nat.lt_succ_of_le (hpre b hb)) ha)

end Sys2Proof.Machine
end

section
/-! Display (44_display R230–R232). The laws of `drawRows` are put in the terms of `spriteBit`, and DXYN answers the state
`State.drawn`. Drawing twice is then two uses of the statement about one draw. -/

namespace Sys2Proof.Machine

/-! ### The framebuffer as its pixels -/

@[simp] theorem pixel_zero (x y : Nat) : pixel 0 x y = false := BitVec.getLsbD_zero

/-- Every bit of the framebuffer is a pixel of the 64 × 32 grid (60_exceptions R336). -/
theorem fb_ext {a b : BitVec 2048} (h : ∀ x y, x < 64 → y < 32 → pixel a x y = pixel b x y) : a = b := by
  refine BitVec.eq_of_getLsbD_eq fun k hk => ?_
  have hpixel := h (k % 64) (k / 64) (Nat.mod_lt k (by decide)) (by omega)
  rwa [pixel, pixel, pixelIndex, Config.fbWidth, Nat.div_add_mod'] at hpixel

/-! ### A sprite's set bits -/

section Sprite
variable {x0 y0 : Nat} {rows : List Byte}

/-- A sprite's bit at a pixel is the bit of the row and column that the wrap brings there. No two rows of at most 32 are
brought to one pixel (R230). -/
theorem spriteBit_eq_true {px py : Nat} (hn : rows.length ≤ 32) (hx : px < 64) (hy : py < 32) :
    spriteBit x0 y0 rows px py = true ↔
      ∃ r c, r < rows.length ∧ c < 8 ∧ rowBit (rows.getD r 0) c = true ∧
        px = (x0 + c) % 64 ∧ py = (y0 + r) % 32 := by
  have hbit : spriteBit x0 y0 rows px py = true ↔
      ((px + 64 - x0 % 64) % 64 < 8 ∧ (py + 32 - y0 % 32) % 32 < rows.length) ∧
        rowBit (rows.getD ((py + 32 - y0 % 32) % 32) 0) ((px + 64 - x0 % 64) % 64) = true := by
    simp only [spriteBit, rowBit, Bool.and_eq_true, decide_eq_true_eq]
  rw [hbit]
  constructor
  · rintro ⟨⟨hc, hr⟩, hset⟩
    exact ⟨_, _, hr, hc, hset, by omega, by omega⟩
  · rintro ⟨r, c, hr, hc, hset, hpx, hpy⟩
    have hcol : (px + 64 - x0 % 64) % 64 = c := by omega
    have hrow : (py + 32 - y0 % 32) % 32 = r := by omega
    rw [hcol, hrow]
    exact ⟨⟨hc, hr⟩, hset⟩

/-- The collision law in pixels: from a clear mark, drawing ends with it set exactly if a set bit met a set pixel. -/
theorem collision_iff_spriteBit (fb : BitVec 2048) (hn : rows.length ≤ 32) :
    (drawRows x0 y0 rows (fb, false)).2 = true ↔
      ∃ px py, px < 64 ∧ py < 32 ∧ spriteBit x0 y0 rows px py = true ∧ pixel fb px py = true := by
  rw [collision_drawRows x0 y0 rows _ hn]
  constructor
  · rintro (hmark | ⟨r, c, hr, hc, hset, hpixel⟩)
    · exact absurd hmark Bool.false_ne_true
    · have hx : (x0 + c) % 64 < 64 := Nat.mod_lt _ (by decide)
      have hy : (y0 + r) % 32 < 32 := Nat.mod_lt _ (by decide)
      exact ⟨_, _, hx, hy, (spriteBit_eq_true hn hx hy).2 ⟨r, c, hr, hc, hset, rfl, rfl⟩, hpixel⟩
  · rintro ⟨px, py, hx, hy, hset, hpixel⟩
    obtain ⟨r, c, hr, hc, hbit, rfl, rfl⟩ := (spriteBit_eq_true hn hx hy).1 hset
    exact .inr ⟨r, c, hr, hc, hbit, hpixel⟩

/-- A byte that is not 0 has a set column. -/
theorem exists_rowBit {row : Byte} (h : row ≠ 0) : ∃ c, c < 8 ∧ rowBit row c = true := by
  by_contra! hclear
  refine h (BitVec.eq_of_getLsbD_eq fun k hk => ?_)
  have hbit := hclear (7 - k) (by omega)
  rw [rowBit, show 7 - (7 - k) = k by omega] at hbit
  exact (Bool.eq_false_of_not_eq_true hbit).trans BitVec.getLsbD_zero.symm

/-- A sprite with a row that is not 0 has a set bit at some pixel, wherever it is drawn. -/
theorem exists_spriteBit {k : Nat} (hn : rows.length ≤ 32) (hk : k < rows.length) (hrow : rows.getD k 0 ≠ 0) :
    ∃ px py, px < 64 ∧ py < 32 ∧ spriteBit x0 y0 rows px py = true := by
  obtain ⟨c, hc, hset⟩ := exists_rowBit hrow
  have hx : (x0 + c) % 64 < 64 := Nat.mod_lt _ (by decide)
  have hy : (y0 + k) % 32 < 32 := Nat.mod_lt _ (by decide)
  exact ⟨_, _, hx, hy, (spriteBit_eq_true hn hx hy).2 ⟨k, c, hk, hc, hset, rfl, rfl⟩⟩

end Sprite

/-! ### What DXYN reads -/

theorem Memory.getD_readBytes (m : Memory) (a : Nat) {n k : Nat} (h : k < n) :
    (m.readBytes a n).getD k 0 = m.byteAt (a + k) := by
  rw [List.getD_eq_getElem _ _ (by rwa [Memory.length_readBytes]), Memory.getElem_readBytes]

/-- Rows of the length read, each the byte memory holds, are the bytes read. -/
theorem Memory.eq_readBytes {m : Memory} {a n : Nat} {rows : List Byte} (hlen : rows.length = n)
    (hrows : ∀ k, k < n → rows.getD k 0 = m.byteAt (a + k)) : rows = m.readBytes a n := by
  refine List.ext_getElem (by rw [hlen, Memory.length_readBytes]) fun k hk _ => ?_
  rw [Memory.getElem_readBytes, ← hrows k (hlen ▸ hk), List.getD_eq_getElem _ _ hk]

/-- An origin coordinate is the register's value, or 0 where it is VF read after it is cleared (R231, D26). -/
theorem toNat_reg_drawOrigin (s : State) (r : RegIx) :
    ((drawOrigin s).reg r).toNat =
      if s.cfg.drawOriginSnapshot = false ∧ r = vf then 0 else (s.reg r).toNat := by
  cases hsnap : s.cfg.drawOriginSnapshot with
  | true => simp [drawOrigin, hsnap]
  | false =>
    by_cases hr : r = vf
    · simp [drawOrigin, hsnap, hr]
    · simp [drawOrigin, hsnap, hr, State.reg_setReg_of_ne]

/-! ### What DXYN answers -/

theorem flagByte_eq_one_or_zero (c : Bool) : flagByte c = 1 ∨ flagByte c = 0 := by
  cases c with
  | true => exact .inl rfl
  | false => exact .inr rfl

theorem flagByte_eq_one {c : Bool} : flagByte c = 1 ↔ c = true := by
  cases c <;> decide

/-- The state after a sprite of these rows is drawn at (x0, y0): the framebuffer, the collision in VF, the redraw flag and
the next pc (R231). -/
def State.drawn (s : State) (x0 y0 : Nat) (rows : List Byte) : State :=
  { s.setReg vf (flagByte (drawRows x0 y0 rows (s.fb, false)).2) with
    fb := (drawRows x0 y0 rows (s.fb, false)).1
    redraw := true }.advance

section Drawn
variable (s : State) (x0 y0 : Nat) (rows : List Byte)

theorem State.drawn_fb : (s.drawn x0 y0 rows).fb = (drawRows x0 y0 rows (s.fb, false)).1 := rfl

theorem State.reg_drawn (r : RegIx) : (s.drawn x0 y0 rows).reg r =
    (s.setReg vf (flagByte (drawRows x0 y0 rows (s.fb, false)).2)).reg r := rfl

theorem State.reg_vf_drawn :
    (s.drawn x0 y0 rows).reg vf = flagByte (drawRows x0 y0 rows (s.fb, false)).2 := by
  rw [State.reg_drawn, State.reg_setReg_self]

theorem State.keepsRegs_drawn : KeepsRegs s (s.drawn x0 y0 rows) [vf] := fun r hr => by
  rw [State.reg_drawn, State.reg_setReg_of_ne _ _ (List.ne_of_not_mem_cons hr)]

end Drawn

section Drw
variable {s : State} {n : BitVec 4} (x y : RegIx)

theorem exec_drw : exec (.drw x y n) s = readThen s s.i.toNat n.toNat fun rows =>
    .next (s.drawn ((drawOrigin s).reg x).toNat ((drawOrigin s).reg y).toNat rows) := rfl

theorem exec_drw_of_inside (h : n.toNat = 0 ∨ s.i.toNat + n.toNat ≤ 0x1000) :
    exec (.drw x y n) s =
      .next (s.drawn ((drawOrigin s).reg x).toNat ((drawOrigin s).reg y).toNat
        (s.mem.readBytes s.i.toNat n.toNat)) := by
  rw [exec_drw, readThen_of_le _ h]

theorem exec_drw_of_outside (h0 : 0 < n.toNat) (h : 0xFFF < s.i.toNat + n.toNat - 1) :
    exec (.drw x y n) s = .fault (.memoryOutOfBounds (max s.i.toNat 0x1000)) := by
  rw [exec_drw, readThen_of_gt _ (Nat.ne_of_gt h0) (by omega)]

end Drw

/-! ### The statements -/

/-- Settles O43: inside memory the answer is `State.drawn` of the bytes read, whose pixels and collision are the laws of
`drawRows`; outside it the read fails. -/
theorem drawSprite : Obligations.DrawSprite := by
  unfold Obligations.DrawSprite
  refine fun x y n s => ⟨toNat_wordXY _ x y n, fun x0 y0 rows hx0 hy0 hlen hrows hin => ?_, exec_drw_of_outside x y⟩
  have hn : rows.length ≤ 32 := by omega
  have hexec : exec (.drw x y n) s = .next (s.drawn x0 y0 rows) := by
    rw [exec_drw_of_inside x y hin, toNat_reg_drawOrigin, toNat_reg_drawOrigin, ← hx0, ← hy0,
      ← Memory.eq_readBytes hlen hrows]
  refine ⟨_, hexec, fun px py hx hy => ?_, ?_, ?_, rfl, rfl, rfl, s.keepsRegs_drawn x0 y0 rows, fun _ => rfl⟩
  · rw [State.drawn_fb, pixel_drawRows _ _ _ _ hn hx hy]
  · rw [State.reg_vf_drawn]
    exact flagByte_eq_one_or_zero _
  · rw [State.reg_vf_drawn, flagByte_eq_one, collision_iff_spriteBit s.fb hn]

/-- Settles O44: neither draw moves what the other reads, so by O43 both XOR the same bits, and the second meets what the
first set on a clear screen. -/
theorem drawTwiceRestores : Obligations.DrawTwiceRestores := by
  unfold Obligations.DrawTwiceRestores
  intro x y n s hx hy hin
  have horigin {r : RegIx} (hr : r ≠ vf) {a : State} (ha : a.reg r = s.reg r) :
      (s.reg r).toNat = if a.cfg.drawOriginSnapshot = false ∧ r = vf then 0 else (a.reg r).toNat := by
    rw [if_neg fun h => hr h.2, ha]
  have hlen := Memory.length_readBytes s.mem s.i.toNat n.toNat
  have hrows (k : Nat) := Memory.getD_readBytes s.mem s.i.toNat (n := n.toNat) (k := k)
  obtain ⟨-, hdraw, -⟩ := drawSprite x y n s
  obtain ⟨t, ht, htpixel, -, -, -, -, htframe, htregs, htmem⟩ :=
    hdraw _ _ _ (horigin hx rfl) (horigin hy rfl) hlen hrows hin
  have hti : t.i = s.i := by rw [htframe]
  have htx : t.reg x = s.reg x := htregs x (by simpa using hx)
  have hty : t.reg y = s.reg y := htregs y (by simpa using hy)
  obtain ⟨-, hredraw, -⟩ := drawSprite x y n t
  obtain ⟨u, hu, hupixel, -, hucollision, -⟩ :=
    hredraw _ _ _ (horigin hx htx) (horigin hy hty) hlen
      (fun k hk => by rw [hrows k hk, hti, htmem]) (by rwa [hti])
  refine ⟨t, u, ht, hu, fb_ext fun px py hpx hpy => ?_, fun hclear ⟨k, hk, hne⟩ => hucollision.2 ?_⟩
  · rw [hupixel px py hpx hpy, htpixel px py hpx hpy, Bool.xor_assoc, Bool.xor_self, Bool.xor_false]
  · obtain ⟨px, py, hpx, hpy, hset⟩ := exists_spriteBit (x0 := (s.reg x).toNat) (y0 := (s.reg y).toNat)
      (rows := s.mem.readBytes s.i.toNat n.toNat) (by omega) (hlen.symm ▸ hk) (by rwa [hrows k hk])
    refine ⟨px, py, hpx, hpy, hset, ?_⟩
    rw [htpixel px py hpx hpy, hclear, pixel_zero, hset, Bool.false_xor]

/-- Settles O45: the framebuffer written is 0, and VF is not among what is written. -/
theorem clearScreen : Obligations.ClearScreen := by
  unfold Obligations.ClearScreen
  exact ⟨rfl, fun s => ⟨_, rfl, fun px py _ _ => pixel_zero px py, rfl, rfl, rfl, fun _ _ => rfl, fun _ => rfl⟩⟩

end Sys2Proof.Machine
end

section
/-! Keypad (45_keypad R250–R253). What `keyIndex` and `lowestKey` answer, then a skip on a key and the wait for one, each as
the shared operation it runs. -/

namespace Sys2Proof.Machine

/-! ### Skips on a key -/

/-- The key of an operand: the operand itself below 16, its low nibble from 16 on under low_nibble (R250, D23). -/
theorem keyIndex_eq_some {p : Config.KeyIndexPolicy} {a : Byte} {k : Fin 16}
    (h : k.val = a.toNat ∨ 16 ≤ a.toNat ∧ p = .lowNibble ∧ k.val = a.toNat % 16) : keyIndex p a = some k := by
  rcases h with hk | ⟨ha, rfl, hk⟩
  · have ha : a.toNat < 16 := hk ▸ k.isLt
    rw [keyIndex.eq_def, dif_pos ha]
    exact congrArg some (Fin.ext hk.symm)
  · rw [keyIndex, dif_neg (Nat.not_lt.2 ha)]
    exact congrArg some (Fin.ext hk.symm)

theorem keyIndex_fault_eq_none {a : Byte} (h : 16 ≤ a.toNat) : keyIndex .fault a = none := by
  rw [keyIndex, dif_neg (Nat.not_lt.2 h)]

section SkipOnKey
variable {s : State} {x : RegIx} (pressed : Bool)

theorem skipOnKey_of_some {k : Fin 16} (h : keyIndex s.cfg.keyIndexPolicy (s.reg x) = some k) :
    skipOnKey s x pressed = skip s (s.keys[k.val] == pressed) := by
  rw [skipOnKey, h]
  rfl

theorem skipOnKey_of_none (h : keyIndex s.cfg.keyIndexPolicy (s.reg x) = none) :
    skipOnKey s x pressed = .fault (.unmodelled .keyIndex) := by
  rw [skipOnKey, h]
  rfl

end SkipOnKey

/-- Settles O46: where VX numbers a key, each is a skip on that key's slot; where it numbers none, each fails. -/
theorem keySkips : Obligations.KeySkips := by
  unfold Obligations.KeySkips
  refine fun x s => ⟨toNat_wordXB_fixed_first _ x _, toNat_wordXB_fixed_first _ x _, fun k hk => ?_, fun hx hp => ?_⟩
  · have hkey := keyIndex_eq_some hk
    obtain ⟨t, ht, htpc, htframe⟩ := skip_next s (s.keys[k.val] == true)
    obtain ⟨u, hu, hupc, huframe⟩ := skip_next s (s.keys[k.val] == false)
    refine ⟨⟨t, (skipOnKey_of_some true hkey).trans ht, ?_, htframe⟩,
      ⟨u, (skipOnKey_of_some false hkey).trans hu, ?_, huframe⟩⟩
    · rw [htpc, beq_true]
    · rw [hupc, beq_false]
      cases s.keys[k.val] <;> rfl
  · have hkey : keyIndex s.cfg.keyIndexPolicy (s.reg x) = none := hp ▸ keyIndex_fault_eq_none hx
    exact ⟨skipOnKey_of_none true hkey, skipOnKey_of_none false hkey⟩

/-! ### The wait for a key -/

theorem lowestKey_eq_some {keys : Vector Bool 16} {k : Fin 16} :
    lowestKey keys = some k ↔ keys[k.val] = true ∧ ∀ j : Fin 16, j < k → keys[j.val] = false := by
  rw [lowestKey, ← Fin.find?_eq_find?_finRange, Fin.find?_eq_some_iff]

theorem lowestKey_eq_none {keys : Vector Bool 16} :
    lowestKey keys = none ↔ ∀ k : Fin 16, keys[k.val] = false := by
  rw [lowestKey, ← Fin.find?_eq_find?_finRange, Fin.find?_eq_none_iff]

section AwaitKey
variable {s : State} (x : RegIx)

theorem exec_ldVxK_of_some {k : Fin 16} (h : lowestKey s.keys = some k) :
    exec (.ldVxK x) s = writeReg s x (BitVec.ofNat 8 k.val) := by
  rw [exec, execLdVxK, h]
  rfl

theorem exec_ldVxK_of_none (h : lowestKey s.keys = none) : exec (.ldVxK x) s = .next s := by
  rw [exec, execLdVxK, h]

end AwaitKey

/-- Settles O47: the lowest pressed key is a register write; with none pressed the state is the answer. -/
theorem awaitKey : Obligations.AwaitKey := by
  unfold Obligations.AwaitKey
  refine fun x s => ⟨toNat_wordXB_fixed_first _ x _, fun k hk hlow => ?_,
    fun hnone => exec_ldVxK_of_none x (lowestKey_eq_none.2 hnone)⟩
  obtain ⟨t, ht, hx, hrest⟩ := writeReg_next s x (BitVec.ofNat 8 k.val)
  have hbyte : k.val < 2 ^ 8 := k.isLt.trans (by decide)
  refine ⟨t, (exec_ldVxK_of_some x (lowestKey_eq_some.2 ⟨hk, hlow⟩)).trans ht, ?_, hrest⟩
  rw [hx, BitVec.toNat_ofNat, Nat.mod_eq_of_lt hbyte]

end Sys2Proof.Machine
end

section
/-! Index register, BCD and the register block (46_memory_index R270–R276). What a write of I, FX33 and the two block copies
answer, inside memory and out of bounds, then the statements. That a load undoes a store is put together from the
statements about each. -/

namespace Sys2Proof.Machine

/-! ### The index register -/

theorem State.toNat_setI_i (s : State) (n : Nat) : (s.setI n).i.toNat = n % 2 ^ s.cfg.iBits.width :=
  toNat_ofNat_mod_width n s.cfg.iBits

/-- `I_BITS` is at least 12, so I takes an address of memory as it is (10_state R22, D5). -/
theorem State.toNat_setI_i_of_lt (s : State) {n : Nat} (h : n < 4096) : (s.setI n).i.toNat = n := by
  have hw : 12 ≤ s.cfg.iBits.width := by cases s.cfg.iBits <;> decide
  have hpow : 2 ^ 12 ≤ 2 ^ s.cfg.iBits.width := Nat.pow_le_pow_right (by decide) hw
  rw [State.toNat_setI_i, Nat.mod_eq_of_lt (Nat.lt_of_lt_of_le h hpow)]

theorem State.onlyIndex_advance_setI (s : State) (n : Nat) : OnlyIndex s (s.setI n).advance :=
  ⟨rfl, fun _ _ => rfl, fun _ => rfl⟩

/-- Settles O48: NNN is below 2^12, so nothing of it is lost. -/
theorem setIndex : Obligations.SetIndex := by
  unfold Obligations.SetIndex
  exact fun nnn s => ⟨toNat_wordA _ nnn, _, rfl, s.toNat_setI_i_of_lt nnn.isLt, rfl, s.onlyIndex_advance_setI _⟩

/-- Settles O49: the sum goes to I mod 2^`I_BITS`, and no V register is written. -/
theorem addToIndex : Obligations.AddToIndex := by
  unfold Obligations.AddToIndex
  exact fun x s => ⟨toNat_wordXB_fixed_first _ x _, _, rfl, s.toNat_setI_i _, rfl, s.onlyIndex_advance_setI _⟩

/-! ### Glyph addresses -/

/-- The glyph of an operand: the operand itself below 16, and from 16 on its low nibble or itself, by the policy (R272,
D24). -/
theorem glyphIndex_eq_some {p : Config.GlyphIndexPolicy} {b : Byte} {a : Nat}
    (h : b.toNat < 16 ∧ a = b.toNat ∨ 16 ≤ b.toNat ∧ p = .lowNibble ∧ a = b.toNat % 16 ∨
      16 ≤ b.toNat ∧ p = .unmasked ∧ a = b.toNat) : glyphIndex p b = some a := by
  rcases h with ⟨hb, rfl⟩ | ⟨hb, rfl, rfl⟩ | ⟨hb, rfl, rfl⟩
  · rw [glyphIndex.eq_def, if_pos hb]
  · rw [glyphIndex, if_neg (Nat.not_lt.2 hb)]
  · rw [glyphIndex, if_neg (Nat.not_lt.2 hb)]

theorem glyphIndex_fault_eq_none {b : Byte} (h : 16 ≤ b.toNat) : glyphIndex .fault b = none := by
  rw [glyphIndex, if_neg (Nat.not_lt.2 h)]

theorem glyphIndex_lt {p : Config.GlyphIndexPolicy} {b : Byte} {a : Nat} (h : glyphIndex p b = some a) : a < 256 := by
  unfold glyphIndex at h
  split_ifs at h
  · cases h; omega
  · cases p <;> cases h <;> omega

section Glyph
variable {s : State} {x : RegIx}

theorem exec_ldF_of_some {a : Nat} (h : glyphIndex s.cfg.glyphIndexPolicy (s.reg x) = some a) :
    exec (.ldF x) s = .next (s.setI (glyphAddress a)).advance := by
  rw [exec, execLdF, h]

theorem exec_ldF_of_none (h : glyphIndex s.cfg.glyphIndexPolicy (s.reg x) = none) :
    exec (.ldF x) s = .fault (.unmodelled .glyphIndex) := by
  rw [exec, execLdF, h]
  rfl

end Glyph

/-- Settles O50: where VX numbers a glyph its address is below 4096, so I takes it as it is; where it numbers none, FX29
fails. -/
theorem glyphAddressByPolicy : Obligations.GlyphAddress := by
  unfold Obligations.GlyphAddress
  refine fun x s => ⟨toNat_wordXB_fixed_first _ x _, fun a ha => ?_, fun hx hp => ?_⟩
  · have hglyph := glyphIndex_eq_some ha
    have hlt : glyphAddress a < 4096 := by
      have ha256 : a < 256 := glyphIndex_lt hglyph
      simp only [glyphAddress, Config.glyphBase]
      omega
    exact ⟨_, exec_ldF_of_some hglyph, s.toNat_setI_i_of_lt hlt, rfl, s.onlyIndex_advance_setI _⟩
  · exact exec_ldF_of_none (hp ▸ glyphIndex_fault_eq_none hx)

/-! ### BCD -/

theorem length_bcd3 (b : Byte) : (bcd3 b).length = 3 := rfl

/-- A byte is put together from its three digits. -/
theorem toNat_eq_sum_digits (b : Byte) :
    b.toNat = 100 * (digit b.toNat 100).toNat + 10 * (digit b.toNat 10).toNat + (digit b.toNat 1).toNat := by
  simp only [toNat_digit]
  omega

theorem exec_ldB (x : RegIx) (s : State) :
    exec (.ldB x) s = writeThen s s.i.toNat (bcd3 (s.reg x)) fun t => .next t.advance := rfl

/-- Settles O51: the three bytes stored from I are the digits of VX. -/
theorem bcdStores : Obligations.BcdStores := by
  unfold Obligations.BcdStores
  refine fun x s => ⟨toNat_wordXB_fixed_first _ x _, fun hi => ?_, fun hi => ?_⟩
  · obtain ⟨t, ht, hbytes, hrest⟩ := writeThen_advance_next (s := s) (bs := bcd3 (s.reg x))
      (by rw [length_bcd3]; omega)
    refine ⟨t, ht, fun hwf => ⟨_, _, _, toNat_digit_le _ 100, toNat_digit_le _ 10, toNat_digit_le _ 1,
      toNat_eq_sum_digits (s.reg x), ?_⟩, hrest⟩
    have hbyte (k : Nat) (hk : k < 3) := congrArg BitVec.toNat (hbytes hwf k hk)
    exact ⟨hbyte 0 (by decide), hbyte 1 (by decide), hbyte 2 (by decide)⟩
  · rw [exec_ldB]
    exact writeThen_of_gt _ (by rw [length_bcd3]; decide) (by rw [length_bcd3]; omega)

/-! ### The register block -/

section Block
variable {s : State} {x : RegIx}

theorem State.blockI_i_of_off (h : s.cfg.loadStoreIncrementsI = false) : (s.blockI x).i = s.i := by
  rw [State.blockI_off x h]

theorem State.toNat_blockI_i_of_on (h : s.cfg.loadStoreIncrementsI = true) :
    (s.blockI x).i.toNat = (s.i.toNat + x.toNat + 1) % 2 ^ s.cfg.iBits.width := by
  rw [State.blockI_on x h, State.toNat_setI_i]

theorem exec_ldMemVx_of_inside (h : s.i.toNat + x.toNat ≤ 0xFFF) :
    exec (.ldMemVx x) s =
      .next ({ s with mem := s.mem.writeBytes s.i.toNat (s.regBlock x) }.blockI x).advance := by
  have hlen := s.length_regBlock x
  rw [exec, execLdMemVx, writeThen_of_le _ (.inr (by omega))]

theorem exec_ldMemVx_of_outside (h : 0xFFF < s.i.toNat + x.toNat) :
    exec (.ldMemVx x) s = .fault (.memoryOutOfBounds (max s.i.toNat 0x1000)) := by
  have hlen := s.length_regBlock x
  rw [exec, execLdMemVx, writeThen_of_gt _ (by omega) (by omega)]

theorem exec_ldVxMem_of_inside (h : s.i.toNat + x.toNat ≤ 0xFFF) :
    exec (.ldVxMem x) s =
      .next ((s.loadRegs 0 (s.mem.readBytes s.i.toNat (x.toNat + 1))).blockI x).advance := by
  rw [exec, execLdVxMem, readThen_of_le _ (.inr (by omega))]

theorem exec_ldVxMem_of_outside (h : 0xFFF < s.i.toNat + x.toNat) :
    exec (.ldVxMem x) s = .fault (.memoryOutOfBounds (max s.i.toNat 0x1000)) := by
  rw [exec, execLdVxMem, readThen_of_gt _ (Nat.succ_ne_zero _) (by omega)]

/-- Byte I + r of a stored block is Vr (R274). -/
theorem State.byteAt_writeBytes_regBlock (hwf : s.mem.wf = true) (h : s.i.toNat + x.toNat ≤ 0xFFF) {r : RegIx}
    (hr : r.toNat ≤ x.toNat) :
    (s.mem.writeBytes s.i.toNat (s.regBlock x)).byteAt (s.i.toNat + r.toNat) = s.reg r := by
  have hlen := s.length_regBlock x
  rw [Memory.byteAt_writeBytes_of_inside hwf (by omega) (by omega), State.getElem_regBlock, BitVec.ofNat_toNat,
    BitVec.setWidth_eq]

/-- Vr of a loaded block is byte I + r (R275). -/
theorem State.reg_loadRegs_readBytes_of_le (m : Memory) (a : Nat) {r : RegIx} (hr : r.toNat ≤ x.toNat) :
    (s.loadRegs 0 (m.readBytes a (x.toNat + 1))).reg r = m.byteAt (a + r.toNat) := by
  have hlen := m.length_readBytes a (x.toNat + 1)
  rw [State.reg_loadRegs_of_inside _ _ _ _ (by omega) (by omega) (by omega), Memory.getElem_readBytes, Nat.sub_zero]

/-- The registers above the block are not loaded (R275). -/
theorem State.reg_loadRegs_readBytes_of_gt (m : Memory) (a : Nat) {r : RegIx} (hr : x.toNat < r.toNat) :
    (s.loadRegs 0 (m.readBytes a (x.toNat + 1))).reg r = s.reg r := by
  have hlen := m.length_readBytes a (x.toNat + 1)
  exact s.reg_loadRegs_of_outside 0 _ r (by omega) (by omega)

end Block

/-- Settles O52: the bytes stored from I are V0..VX, and I is written in the compatibility mode alone. -/
theorem blockStores : Obligations.BlockStores := by
  unfold Obligations.BlockStores
  refine fun x s => ⟨toNat_wordXB_fixed_first _ x _, fun hi => ?_, exec_ldMemVx_of_outside⟩
  refine ⟨_, exec_ldMemVx_of_inside hi, fun hwf r hr => ?_, fun hoff => ?_, fun hon => ?_, ?_, ?_,
    fun r _ => ?_, fun a ha => ?_⟩
  · rw [State.advance_mem, State.blockI_mem, State.byteAt_writeBytes_regBlock hwf hi hr]
  · exact State.blockI_i_of_off hoff
  · exact State.toNat_blockI_i_of_on hon
  · rw [State.advance_pc, State.blockI_pc]
  · rw [State.advance, State.blockI_eq]
    rfl
  · rw [State.reg_advance, State.reg_blockI]
    rfl
  · rw [State.advance_mem, State.blockI_mem,
      Memory.byteAt_writeBytes_of_outside _ _ (by rwa [State.length_regBlock])]

/-- Settles O53: V0..VX are the bytes read from I, and I is written in the compatibility mode alone. -/
theorem blockLoads : Obligations.BlockLoads := by
  unfold Obligations.BlockLoads
  refine fun x s => ⟨toNat_wordXB_fixed_first _ x _, fun hi => ?_, exec_ldVxMem_of_outside⟩
  refine ⟨_, exec_ldVxMem_of_inside hi, fun r hr => ?_, fun r hr => ?_, fun hoff => ?_, fun hon => ?_, ?_, ?_,
    fun a => ?_⟩
  · rw [State.reg_advance, State.reg_blockI, State.reg_loadRegs_readBytes_of_le _ _ hr]
  · rw [State.reg_advance, State.reg_blockI, State.reg_loadRegs_readBytes_of_gt _ _ hr]
  · rw [State.advance_i, State.blockI_i_of_off (by rwa [State.loadRegs_cfg]), State.loadRegs_i]
  · rw [State.advance_i, State.toNat_blockI_i_of_on (by rwa [State.loadRegs_cfg]), State.loadRegs_i,
      State.loadRegs_cfg]
  · rw [State.advance_pc, State.blockI_pc, State.loadRegs_pc]
  · rw [State.advance, State.blockI_loadRegs_eq]
    rfl
  · rw [State.advance_mem, State.blockI_mem, State.loadRegs_mem]

/-- Settles O54: the load reads from I the bytes the store put there (O52, O53). -/
theorem storeThenLoadRestores : Obligations.StoreThenLoadRestores := by
  unfold Obligations.StoreThenLoadRestores
  intro x s v hwf hi
  obtain ⟨-, hstore, -⟩ := blockStores x s
  obtain ⟨t, ht, hbytes, -⟩ := hstore hi
  obtain ⟨-, hload, -⟩ := blockLoads x { t with v := v, i := s.i }
  obtain ⟨u, hu, hregs, -⟩ := hload hi
  exact ⟨t, ht, u, hu, fun r hr => (hregs r hr).trans (hbytes hwf r hr)⟩

end Sys2Proof.Machine
end

section
/-! Timers (47_timers R300–R302; 60_exceptions R333). What FX15 and FX18 answer, and FX18's own step: the tick that ends it
reads the ST that the instruction has just written. -/

namespace Sys2Proof.Machine

section Answers
variable (s : State) (x : RegIx)

theorem exec_ldVxDt : exec (.ldVxDt x) s = writeReg s x s.dt := rfl

theorem exec_ldDtVx : exec (.ldDtVx x) s = .next { s with dt := s.reg x }.advance := rfl

theorem exec_ldStVx : exec (.ldStVx x) s = .next { s with st := s.reg x }.advance := rfl

end Answers

/-- A fetched instruction that succeeds is followed by the end of the step (30_encoding R100, R102). -/
theorem step_of_exec_next {s t : State} {i : Instr} (hi : s.fetchInstr = .ok i) (ht : exec i s = .next t) :
    step s = .next t.endStep := by
  rw [step_of_fetchInstr_ok hi, ht, finishStep]

/-- The tick raises the sound flag exactly where ST is 1 (R333; 90_conflicts C4). -/
theorem State.endStep_sound_eq_decide (t : State) : t.endStep.sound = (t.sound || decide (t.st.toNat = 1)) := by
  rw [State.endStep_eq]

/-- Settles O55: FX07 is a register write; FX15 and FX18 replace their timer and move pc. -/
theorem timerMoves : Obligations.TimerMoves := by
  unfold Obligations.TimerMoves
  intro x s
  refine ⟨toNat_wordXB_fixed_first _ x _, toNat_wordXB_fixed_first _ x _, toNat_wordXB_fixed_first _ x _, ?_, ?_, ?_⟩
  · rw [exec_ldVxDt]
    exact writeReg_next s x s.dt
  · exact ⟨_, exec_ldDtVx s x, rfl, rfl, rfl, fun _ _ => rfl, fun _ => rfl⟩
  · exact ⟨_, exec_ldStVx s x, rfl, rfl, rfl, fun _ _ => rfl, fun _ => rfl⟩

/-- Settles O57: the tick of FX18's step finds VX in ST, so it raises the flag for VX = 1 alone. -/
theorem soundRaisedAtOne : Obligations.SoundRaisedAtOne := by
  unfold Obligations.SoundRaisedAtOne
  intro s x hi
  have hsound := State.endStep_sound_eq_decide { s with st := s.reg x }.advance
  refine ⟨_, step_of_exec_next hi (exec_ldStVx s x), toNat_countDown (s.reg x), fun hone => ?_, fun hne => ?_⟩
  · rw [hsound, State.advance_st, decide_eq_true hone, Bool.or_true]
  · rw [hsound, State.advance_st, decide_eq_false hne, Bool.or_false, State.advance_sound]

end Sys2Proof.Machine
end

section
/-! Failures (60_exceptions R320–R328). `State.execFailure` is the failure an instruction meets, said from V, I, pc, sp, memory
and the configuration alone; `exec_answers` ties it to `exec`. What a step's failure is, and what it depends on, is read off
from it. -/

namespace Sys2Proof.Machine

/-! ### The failure an instruction meets -/

/-- A failed bounds check as the failure it is (R322). -/
def boundsFailure (a n : Nat) : Option Fault := (outOfBounds a n).map .memoryOutOfBounds

/-- A missing meaning as the failure it is (R326). -/
def unmodelledFailure {α : Type} (r : Reason) (o : Option α) : Option Fault :=
  if o.isSome then none else some (.unmodelled r)

/-- The failure of a supplied FX94 effect, or of none supplied (R322, R326). -/
def fx94Failure (o : Option Config.Fx94Effect) : Option Fault :=
  match o with
  | none => some (.unmodelled .fx94)
  | some e => (fx94OutOfBounds e).map .memoryOutOfBounds

/-- The failure of an instruction at a state, `none` where it succeeds: one row for each instruction that R322–R326 name. -/
def State.execFailure (s : State) (i : Instr) : Option Fault :=
  match i with
  | .ret => if 0 < s.sp.val then none else some .stackUnderflow
  | .call _ => if s.sp.val < 16 then none else some .stackOverflow
  | .skr1 .. => unmodelledFailure .relSkip1 s.cfg.relSkipCond
  | .skr2 .. => unmodelledFailure .relSkip2 s.cfg.relSkipCond
  | .skr3 .. => unmodelledFailure .relSkip3 s.cfg.relSkipCond
  | .div _ y => if s.reg y = 0 then some .divideByZero else none
  | .bcd16 .. => boundsFailure s.i.toNat 5
  | .drw _ _ n => boundsFailure s.i.toNat n.toNat
  | .skp x | .sknp x => unmodelledFailure .keyIndex (keyIndex s.cfg.keyIndexPolicy (s.reg x))
  | .ldF x => unmodelledFailure .glyphIndex (glyphIndex s.cfg.glyphIndexPolicy (s.reg x))
  | .ldB _ => boundsFailure s.i.toNat 3
  | .ldMemVx x | .ldVxMem x => boundsFailure s.i.toNat (x.toNat + 1)
  | .glyph3 x => fx94Failure (fx94Effect s.cfg.fx94Sem (s.fx94Query x))
  | _ => none

/-- That an answer is the given failure, or a next state where none is given. -/
inductive Answers : Option Fault → Result → Prop
  | next (t : State) : Answers none (.next t)
  | fault (f : Fault) : Answers (some f) (.fault f)

namespace Answers

variable {o : Option Fault} {r : Result}

theorem fault_iff {f : Fault} (h : Answers o r) : r = .fault f ↔ o = some f := by
  cases h with
  | next t => exact ⟨nofun, nofun⟩
  | fault g => simp

theorem next_or_fault (h : Answers o r) : (∃ t, r = .next t) ∨ ∃ f, r = .fault f := by
  cases h with
  | next t => exact .inl ⟨t, rfl⟩
  | fault f => exact .inr ⟨f, rfl⟩

theorem finishStep (h : Answers o r) : Answers o (Machine.finishStep r) := by
  cases h with
  | next t => exact .next t.endStep
  | fault f => exact .fault f

end Answers

section Operations
variable {s : State}

theorem answers_readThen {k : List Byte → Result} (a n : Nat) (hk : ∀ bs, Answers none (k bs)) :
    Answers (boundsFailure a n) (readThen s a n k) := by
  unfold boundsFailure readThen
  cases outOfBounds a n with
  | none => exact hk _
  | some e => exact .fault _

theorem answers_writeThen {k : State → Result} (a : Nat) {bs : List Byte} {n : Nat} (hn : bs.length = n)
    (hk : ∀ t, Answers none (k t)) : Answers (boundsFailure a n) (writeThen s a bs k) := by
  unfold boundsFailure writeThen
  rw [hn]
  cases outOfBounds a n with
  | none => exact hk _
  | some e => exact .fault _

theorem answers_relSkip (f : Config.RelSkip → List (Byte × Byte)) (reason : Reason) (x y : RegIx) :
    Answers (unmodelledFailure reason s.cfg.relSkipCond) (relSkip s (s.cfg.relSkipCond.map f) reason x y) := by
  cases s.cfg.relSkipCond with
  | none => exact .fault _
  | some c => exact .next _

theorem answers_skipOnKey (x : RegIx) (pressed : Bool) :
    Answers (unmodelledFailure .keyIndex (keyIndex s.cfg.keyIndexPolicy (s.reg x))) (skipOnKey s x pressed) := by
  unfold skipOnKey
  cases keyIndex s.cfg.keyIndexPolicy (s.reg x) with
  | none => exact .fault _
  | some k => exact .next _

theorem answers_popThen {k : Word → State → Result} (hk : ∀ w t, Answers none (k w t)) :
    Answers (if 0 < s.sp.val then none else some .stackUnderflow) (popThen s k) := by
  by_cases h : 0 < s.sp.val
  · rw [if_pos h, popThen_of_pos k h]
    exact hk _ _
  · rw [if_neg h, popThen_of_empty k (by omega)]
    exact .fault _

theorem answers_pushThen {k : State → Result} (w : Word) (hk : ∀ t, Answers none (k t)) :
    Answers (if s.sp.val < 16 then none else some .stackOverflow) (pushThen s w k) := by
  by_cases h : s.sp.val < 16
  · rw [if_pos h, pushThen_of_lt w k h]
    exact hk _
  · rw [if_neg h, pushThen_of_full w k (by omega)]
    exact .fault _

theorem answers_div (x y : RegIx) :
    Answers (if s.reg y = 0 then some .divideByZero else none) (execDiv x y s) := by
  unfold execDiv
  by_cases h : s.reg y = 0
  · rw [if_pos h, if_pos h]
    exact .fault _
  · rw [if_neg h, if_neg h]
    exact .next _

theorem answers_ldF (x : RegIx) :
    Answers (unmodelledFailure .glyphIndex (glyphIndex s.cfg.glyphIndexPolicy (s.reg x))) (execLdF x s) := by
  unfold execLdF
  cases glyphIndex s.cfg.glyphIndexPolicy (s.reg x) with
  | none => exact .fault _
  | some a => exact .next _

theorem answers_ldVxK (x : RegIx) : Answers none (execLdVxK x s) := by
  unfold execLdVxK
  cases lowestKey s.keys with
  | none => exact .next _
  | some k => exact .next _

theorem answers_glyph3 (x : RegIx) :
    Answers (fx94Failure (fx94Effect s.cfg.fx94Sem (s.fx94Query x))) (execGlyph3 x s) := by
  unfold execGlyph3 fx94Failure
  cases fx94Effect s.cfg.fx94Sem (s.fx94Query x) with
  | none => exact .fault _
  | some e =>
    dsimp only
    cases fx94OutOfBounds e with
    | none => exact .next _
    | some a => exact .fault _

end Operations

/-- An instruction answers its failure, or a next state where it meets none: one arm of `exec` each. -/
theorem exec_answers (i : Instr) (s : State) : Answers (s.execFailure i) (exec i s) := by
  cases i with
  | ret => rw [exec_ret]; exact answers_popThen fun _ _ => .next _
  | call nnn => rw [exec_call]; exact answers_pushThen _ fun _ => .next _
  | skr1 x y => exact answers_relSkip (·.rel1) .relSkip1 x y
  | skr2 x y => exact answers_relSkip (·.rel2) .relSkip2 x y
  | skr3 x y => exact answers_relSkip (·.rel3) .relSkip3 x y
  | div x y => exact answers_div x y
  | bcd16 x y => rw [exec_bcd16]; exact answers_writeThen _ (length_bcd5 _) fun _ => .next _
  | drw x y n => rw [exec_drw]; exact answers_readThen _ _ fun _ => .next _
  | skp x => exact answers_skipOnKey x true
  | sknp x => exact answers_skipOnKey x false
  | ldVxK x => exact answers_ldVxK x
  | ldF x => exact answers_ldF x
  | ldB x => rw [exec_ldB]; exact answers_writeThen _ (length_bcd3 _) fun _ => .next _
  | ldMemVx x => rw [exec, execLdMemVx]; exact answers_writeThen _ (s.length_regBlock x) fun _ => .next _
  | ldVxMem x => rw [exec, execLdVxMem]; exact answers_readThen _ _ fun _ => .next _
  | glyph3 x => exact answers_glyph3 x
  | _ => exact .next _

/-! ### What an instruction's failure is, and what it depends on -/

theorem boundsFailure_ne_unsupported (a n : Nat) (w : Word) : boundsFailure a n ≠ some (.unsupportedOpcode w) := by
  simp [boundsFailure]

theorem unmodelledFailure_ne_unsupported {α : Type} (r : Reason) (o : Option α) (w : Word) :
    unmodelledFailure r o ≠ some (.unsupportedOpcode w) := by
  cases o <;> simp [unmodelledFailure]

theorem fx94Failure_ne_unsupported (o : Option Config.Fx94Effect) (w : Word) :
    fx94Failure o ≠ some (.unsupportedOpcode w) := by
  cases o <;> simp [fx94Failure]

/-- No instruction raises UnsupportedOpcode (R321). -/
theorem State.execFailure_ne_unsupported (s : State) (i : Instr) (w : Word) :
    s.execFailure i ≠ some (.unsupportedOpcode w) := by
  cases i with
  | ret | call | div => simp [State.execFailure]
  | bcd16 | drw | ldB | ldMemVx | ldVxMem => exact boundsFailure_ne_unsupported _ _ w
  | skr1 | skr2 | skr3 | skp | sknp | ldF => exact unmodelledFailure_ne_unsupported _ _ w
  | glyph3 => exact fx94Failure_ne_unsupported _ w
  | _ => exact nofun

section Congr
variable {s u : State}

/-- Of the state an instruction's failure reads V, I, pc, sp, memory and the configuration alone (R327). -/
theorem State.execFailure_congr (hv : u.v = s.v) (hi : u.i = s.i) (hpc : u.pc = s.pc) (hsp : u.sp = s.sp)
    (hmem : u.mem = s.mem) (hcfg : u.cfg = s.cfg) (i : Instr) : u.execFailure i = s.execFailure i := by
  unfold State.execFailure
  simp only [State.reg_congr hv, State.fx94Query_congr hv hi hpc hmem, hi, hsp, hcfg]

theorem State.fetchWord_congr (hpc : u.pc = s.pc) (hmem : u.mem = s.mem) : u.fetchWord = s.fetchWord := by
  rw [State.fetchWord, State.fetchWord, hpc, hmem]

theorem State.fetchInstr_congr (hpc : u.pc = s.pc) (hmem : u.mem = s.mem) : u.fetchInstr = s.fetchInstr := by
  rw [State.fetchInstr, State.fetchInstr, State.fetchWord_congr hpc hmem]

end Congr

/-! ### The failure of a step -/

/-- The failure of a step: the fetch's or the decode's, or the fetched instruction's (R328). -/
def State.stepFailure (s : State) : Option Fault :=
  match s.fetchInstr with
  | .error f => some f
  | .ok i => s.execFailure i

theorem step_answers (s : State) : Answers s.stepFailure (step s) := by
  unfold State.stepFailure step
  cases s.fetchInstr with
  | error f => exact .fault f
  | ok i => exact (exec_answers i s).finishStep

theorem State.stepFailure_congr {s u : State} (hv : u.v = s.v) (hi : u.i = s.i) (hpc : u.pc = s.pc) (hsp : u.sp = s.sp)
    (hmem : u.mem = s.mem) (hcfg : u.cfg = s.cfg) : u.stepFailure = s.stepFailure := by
  simp only [State.stepFailure, State.fetchInstr_congr hpc hmem, State.execFailure_congr hv hi hpc hsp hmem hcfg]

/-- Settles O8: `exec_answers` leaves no third answer. -/
theorem stepSucceedsOrFails : Obligations.StepSucceedsOrFails := by
  unfold Obligations.StepSucceedsOrFails
  exact fun s => (step_answers s).next_or_fault

/-- Settles O21: the failure is a function of what the two states agree on. -/
theorem failuresDecidedByRegistersAndMemory : Obligations.FailuresDecidedByRegistersAndMemory := by
  unfold Obligations.FailuresDecidedByRegistersAndMemory
  intro s u f hv hi hpc hsp hmem hcfg hs
  rw [(step_answers u).fault_iff, State.stepFailure_congr hv hi hpc hsp hmem hcfg]
  exact (step_answers s).fault_iff.1 hs

/-! ### UnsupportedOpcode -/

theorem eq_unsupported_of_decode_error {w : Word} {e : DecodeError} (h : decode w = .error e) :
    e = .unsupportedOpcode w := by
  unfold decode at h
  split at h
  · cases h
  · cases h
    rfl

/-- The fetch and the decode raise UnsupportedOpcode for the fetched word alone, where the decoder rejects it. -/
theorem State.fetchInstr_eq_unsupported {s : State} {w : Word} :
    s.fetchInstr = .error (.unsupportedOpcode w) ↔
      s.fetchWord = .ok w ∧ decode w = .error (.unsupportedOpcode w) := by
  refine ⟨fun h => ?_, fun ⟨hw, hd⟩ => by simp only [State.fetchInstr, hw, hd, decodeFault]⟩
  by_cases hp : s.pc.toNat ≤ 0xFFE
  · rw [State.fetchInstr, State.fetchWord_of_le hp] at h
    dsimp only at h
    split at h
    · rename_i e hd
      obtain rfl := eq_unsupported_of_decode_error hd
      cases h
      exact ⟨State.fetchWord_of_le hp, hd⟩
    · cases h
  · rw [State.fetchInstr, State.fetchWord_of_gt (by omega)] at h
    cases h

/-- Settles O5: no instruction raises it, and the decoder rejects R96's words alone (O4). -/
theorem unsupportedOpcodeExactly : Obligations.UnsupportedOpcodeExactly := by
  unfold Obligations.UnsupportedOpcodeExactly
  intro s w
  have hstep : s.stepFailure = some (.unsupportedOpcode w) ↔ s.fetchInstr = .error (.unsupportedOpcode w) := by
    unfold State.stepFailure
    cases s.fetchInstr with
    | error f => simp
    | ok i => exact iff_of_false (s.execFailure_ne_unsupported i w) nofun
  rw [(step_answers s).fault_iff, hstep, State.fetchInstr_eq_unsupported, (decodeExactlySupported w).2]

end Sys2Proof.Machine
end

section
/-! The host's transactions (60_exceptions R334–R338). What a failed step transaction answers; that each transaction keeps the
invariant; the ports, and the end of a run. -/

namespace Sys2Proof.Machine

/-! ### The failed step -/

/-- A step transaction answers a record only for a failure of its step. -/
theorem step_fault_of_transact_failed {s : State} {rnd : Byte} {f : Failure}
    (h : (transact (.step rnd) s).2 = .failed f) :
    ∃ g, step (s.presentRnd rnd) = .fault g ∧ f = failureRecord s g := by
  obtain ⟨t, ht⟩ | ⟨g, hg⟩ := (step_answers (s.presentRnd rnd)).next_or_fault
  · rw [transact_step_of_next ht] at h
    cases h
  · rw [transact_step_of_fault hg] at h
    cases h
    exact ⟨g, hg, rfl⟩

theorem faultCode_between (g : Fault) : 1 ≤ (faultCode g).toNat ∧ (faultCode g).toNat ≤ 6 := by
  cases g <;> simp [faultCode]

section FailureRecord
variable {s : State} (g : Fault)

theorem failureRecord_word_of_le (h : s.pc.toNat ≤ 0xFFE) :
    (failureRecord s g).word = some (wordOfBytes (s.mem.byteAt s.pc.toNat) (s.mem.byteAt (s.pc.toNat + 1))) := by
  simp only [failureRecord, State.fetchWord_of_le h]

theorem failureRecord_word_of_gt (h : 0xFFE < s.pc.toNat) : (failureRecord s g).word = none := by
  simp only [failureRecord, State.fetchWord_of_gt h]

end FailureRecord

/-- Settles O22: the record is that of the step's failure, which by O21 neither the random input nor the fault mark can
change. -/
theorem failedStepChangesNothing : Obligations.FailedStepChangesNothing := by
  unfold Obligations.FailedStepChangesNothing
  refine fun s rnd rnd' => ⟨fun g hg => ⟨_, congrArg Prod.snd (transact_step_of_fault hg)⟩, fun f hf => ?_⟩
  obtain ⟨g, hg, rfl⟩ := step_fault_of_transact_failed hf
  have hcode := faultCode_between g
  have hagain : step (State.presentRnd { s with faultMark := true } rnd') = .fault g :=
    failuresDecidedByRegistersAndMemory (s.presentRnd rnd) _ g rfl rfl rfl rfl rfl rfl hg
  refine ⟨⟨g, hg, recordShows_failureRecord s g⟩, congrArg Prod.fst (transact_step_of_fault hg), rfl,
    failureRecord_word_of_le g, fun hp => ⟨failureRecord_word_of_gt g hp, ?_⟩, hcode.1, hcode.2,
    congrArg Prod.snd (transact_step_of_fault hagain)⟩
  have hfetch : step (s.presentRnd rnd) = .fault (.memoryOutOfBounds (max s.pc.toNat 4096)) :=
    step_of_fetchWord_error (State.fetchWord_of_gt hp)
  cases hg.symm.trans hfetch
  rfl

/-! ### The invariant -/

/-- The glyph table fits in memory, whatever its bytes (70_reset_and_hazards R361). -/
theorem wf_mem_initState (cfg : Config.Params) : (initState cfg).mem.wf = true :=
  Memory.wf_writeBytes rfl (.inr (by rw [Vector.length_toList]; decide))

/-- Memory in canonical form meets the invariant with the values `init` and `reset` give to I, pc and sp. -/
theorem State.inv_of_start {s : State} (hm : s.mem.wf = true) (hi : s.i = 0) (hpc : s.pc = 0x200) (hsp : s.sp = 0) :
    s.Inv := by
  refine State.inv_iff.2 ⟨hm, ?_, ?_, fun k hk => ?_⟩
  · rw [State.IndexInRange, hi]
    exact Nat.two_pow_pos _
  · rw [hpc]
    decide
  · rw [hsp] at hk
    exact absurd hk (Nat.not_lt_zero _)

theorem State.inv_initialise (s : State) : s.initialise.Inv :=
  State.inv_of_start (wf_mem_initState s.cfg) rfl rfl rfl

section Inv
variable {s : State} (h : s.Inv)
include h

theorem State.inv_reinitialise : s.reinitialise.Inv := State.inv_of_start h.1 rfl rfl rfl

theorem inv_transact_load (bytes : List Byte) : (transact (.load bytes) s).1.Inv := by
  by_cases hlen : bytes.length ≤ 3584
  · obtain ⟨hm, hrest⟩ := State.inv_iff.1 h
    simp only [transact, State.loadProgram_of_le hlen]
    exact State.inv_iff.2 ⟨Memory.wf_writeBytes hm (.inr (by omega)), hrest⟩
  · simp only [transact, State.loadProgram_of_gt (Nat.lt_of_not_le hlen)]
    exact h

theorem inv_transact_step (rnd : Byte) : (transact (.step rnd) s).1.Inv := by
  obtain ⟨t, ht⟩ | ⟨g, hg⟩ := (step_answers (s.presentRnd rnd)).next_or_fault
  · rw [transact_step_of_next ht]
    exact stepKeepsInvariant (s.presentRnd rnd) t h ht
  · rw [transact_step_of_fault hg]
    exact h

end Inv

/-- Settles O14: four transactions can write what the invariant reads, and the other five leave it. -/
theorem transactionsKeepInvariant : Obligations.TransactionsKeepInvariant := by
  unfold Obligations.TransactionsKeepInvariant
  intro op s h
  cases op with
  | init => exact s.inv_initialise
  | reset => exact State.inv_reinitialise h
  | load bytes => exact inv_transact_load h bytes
  | step rnd => exact inv_transact_step h rnd
  | writeKeys | readFb | readFlags | ackRedraw | ackSound => exact h

/-! ### The ports and the end of a run -/

/-- Settles O59: pixel (x, y) is bit y · 64 + x of the framebuffer as it is kept (D29). -/
theorem hostPorts : Obligations.HostPorts := by
  unfold Obligations.HostPorts
  exact fun s keys => ⟨rfl, ⟨s.fb, rfl, fun x y _ _ => rfl⟩, rfl, rfl, rfl, fun rnd t => transact_step_of_next⟩

/-- Settles O60: the jump leaves the state as it is, so the step is its end alone, which moves neither pc nor memory. -/
theorem endOfRunStays : Obligations.EndOfRunStays := by
  unfold Obligations.EndOfRunStays
  rintro s ⟨hmark, nnn, hfetch, hpc⟩
  have hjump : exec (.jp nnn) s = .next s := congrArg (fun w => Host.Outcome.next (s.goto w)) hpc
  exact ⟨s.endStep, step_of_exec_next hfetch hjump,
    ⟨hmark, nnn, (State.fetchInstr_congr rfl rfl).trans hfetch, hpc⟩, rfl⟩

end Sys2Proof.Machine
end

section
/-! The timers over a step (60_exceptions R333): no effect but FX15's writes DT and none but FX18's writes ST, so the tick
finds them as the step began. -/

namespace Sys2Proof

theorem Instr.effectKind_eq_delay {i : Instr} : i.effectKind = .delay ↔ ∃ x, i = .ldDtVx x := by
  cases i <;> simp [effectKind]

theorem Instr.effectKind_eq_sound {i : Instr} : i.effectKind = .sound ↔ ∃ x, i = .ldStVx x := by
  cases i <;> simp [effectKind]

end Sys2Proof

namespace Sys2Proof.Machine

section ExecEffect
variable {s t : State} {k : EffectKind}

theorem ExecEffect.dt_eq (h : ExecEffect s k t) (hk : k ≠ .delay) : t.dt = s.dt := by
  cases h with
  | delay => exact absurd rfl hk
  | _ => simp

theorem ExecEffect.st_eq (h : ExecEffect s k t) (hk : k ≠ .sound) : t.st = s.st := by
  cases h with
  | sound => exact absurd rfl hk
  | _ => simp

end ExecEffect

/-- Settles O9: the tick counts down the timers that the instruction has left. -/
theorem timersCountSteps : Obligations.TimersCountSteps := by
  unfold Obligations.TimersCountSteps
  intro s t hstep
  obtain ⟨i, u, hf, hu, rfl⟩ := step_effect hstep
  refine ⟨i, hf, fun hi => ?_, fun hi => ?_⟩
  · rw [State.endStep_dt, toNat_countDown, hu.dt_eq (mt Instr.effectKind_eq_delay.1 (not_exists.2 hi))]
  · have hst : u.st = s.st := hu.st_eq (mt Instr.effectKind_eq_sound.1 (not_exists.2 hi))
    refine ⟨by rw [State.endStep_st, toNat_countDown, hst], ?_⟩
    rw [State.endStep_sound_eq_decide, hst, hu.sound_eq, Bool.or_eq_true, decide_eq_true_iff]

end Sys2Proof.Machine
end

section
/-! Reset and hazards (70_reset_and_hazards R360–R366). `init` and `reset` give the values of `State.reset`, read here field by
field; the memory `init` leaves is the glyph table in zeroes; a load is one write from 0x200; and FX07 after FX15 reads the
DT that the tick between them has counted down. -/

namespace Sys2Proof.Machine

/-! ### The values at reset -/

@[simp] theorem State.reg_reset (r : RegIx) : State.reset.reg r = 0 := Vector.getElem_replicate r.isLt

@[simp] theorem State.getElem_stack_reset (k : Fin 16) : State.reset.stack[k.val] = 0 := Vector.getElem_replicate k.isLt

@[simp] theorem State.getElem_keys_reset (k : Fin 16) : State.reset.keys[k.val] = false := Vector.getElem_replicate k.isLt

/-! ### The memory `init` leaves -/

/-- Outside 0x050 to 0x09F an unlisted byte is 0 (R360). -/
theorem Memory.unlisted_eq_zero {a : Nat} (h : a < 0x050 ∨ 0x0A0 ≤ a) : Memory.unlisted a = 0 := by
  rw [Memory.unlisted, Config.glyphBase]
  split
  · exact List.getD_eq_default _ _ (show 80 ≤ a - 0x050 by omega)
  · rfl

section InitState
variable (cfg : Config.Params)

theorem byteAt_initState_glyph (k : Fin 80) : (initState cfg).mem.byteAt (0x050 + k.val) = cfg.glyphTable[k.val] :=
  Memory.byteAt_writeBytes_of_inside rfl (by rw [Vector.length_toList]; decide) (by rw [Vector.length_toList]; exact k.isLt)

theorem byteAt_initState_of_outside {a : Nat} (h : a < 0x050 ∨ 0x0A0 ≤ a) : (initState cfg).mem.byteAt a = 0 :=
  calc (initState cfg).mem.byteAt a
    _ = Memory.byteAt [] a := Memory.byteAt_writeBytes_of_outside [] _ (by rwa [Vector.length_toList])
    _ = 0 := Memory.unlisted_eq_zero h

end InitState

/-- Settles O10: the glyph table is written over memory that lists nothing, and every other field the statement names is
that of `State.reset`, but for the configuration, which stays (log 22). -/
theorem initEffect : Obligations.InitEffect := by
  unfold Obligations.InitEffect
  exact fun s => ⟨s.initialise, rfl, State.reg_reset, rfl, rfl, rfl, State.getElem_stack_reset, rfl, rfl,
    fun x y _ _ => pixel_zero x y, State.getElem_keys_reset, rfl, rfl, rfl, byteAt_initState_glyph s.cfg,
    fun _ => byteAt_initState_of_outside s.cfg, rfl⟩

/-- Settles O11: memory and the configuration stay, the redraw flag is the parameter, and every other field the statement
names is that of `State.reset`. -/
theorem resetEffect : Obligations.ResetEffect := by
  unfold Obligations.ResetEffect
  exact fun s => ⟨s.reinitialise, rfl, State.reg_reset, rfl, rfl, rfl, State.getElem_stack_reset, rfl, rfl,
    fun x y _ _ => pixel_zero x y, State.getElem_keys_reset, rfl, rfl, rfl, fun _ => rfl, rfl⟩

/-! ### The load of a program -/

section Load
variable {s : State} {bytes : List Byte}

theorem transact_load_of_le (h : bytes.length ≤ 3584) :
    transact (.load bytes) s = ({ s with mem := s.mem.writeBytes 0x200 bytes }, .ok) := by
  simp only [transact, State.loadProgram_of_le h]

theorem transact_load_of_gt (h : 3584 < bytes.length) : transact (.load bytes) s = (s, .loadTooLarge) := by
  simp only [transact, State.loadProgram_of_gt h]

end Load

/-- Settles O58: at most 3584 bytes from 0x200 end within memory, so the write puts each of them at its address. -/
theorem programLoad : Obligations.ProgramLoad := by
  unfold Obligations.ProgramLoad
  refine fun bytes s => ⟨fun hlen => ?_, transact_load_of_gt⟩
  refine ⟨_, transact_load_of_le hlen, rfl, fun hwf k hk => ?_, fun a ha => ?_⟩
  · exact Memory.byteAt_writeBytes_of_inside hwf (by omega) hk
  · exact Memory.byteAt_writeBytes_of_outside s.mem bytes ha

/-! ### FX07 after FX15 -/

/-- The step of FX15 leaves DT one below VX, or at 0 (47_timers R301; 60_exceptions R333). -/
theorem dt_after_step_ldDtVx {s t : State} {x : RegIx} (hi : s.fetchInstr = .ok (.ldDtVx x)) (ht : step s = .next t) :
    t.dt = countDown (s.reg x) := by
  cases ht.symm.trans (step_of_exec_next hi (exec_ldDtVx s x))
  rfl

/-- The step of FX07 succeeds and gives VX the DT it began with (47_timers R300). -/
theorem step_ldVxDt_next {s : State} {x : RegIx} (hi : s.fetchInstr = .ok (.ldVxDt x)) :
    ∃ t, step s = .next t ∧ t.reg x = s.dt := by
  obtain ⟨t, ht, hx, -⟩ := writeReg_next s x s.dt
  exact ⟨t.endStep, step_of_exec_next hi ht, hx⟩

/-- Settles O56: FX07 reads the DT that the tick of FX15's step has left. -/
theorem delayReadsOneLower : Obligations.DelayReadsOneLower := by
  unfold Obligations.DelayReadsOneLower
  intro s t x y hx ht hy
  obtain ⟨u, hu, hreg⟩ := step_ldVxDt_next hy
  exact ⟨u, hu, by rw [hreg, dt_after_step_ldDtVx hx ht, toNat_countDown]⟩

end Sys2Proof.Machine
end
